-- ==== Sys2Proof/Word.lean ====
section
/-! DEFINITION. The word types of the S-DES engine. A bit vector of the spec (00_scope.md R7) is a
`BitVec`: position 1 of the vector is the most significant bit of its field (R10), so the number `fld(v)`
that travels on a port and the vector itself are the same `BitVec`, and `vec_n`, `fld` are identities. -/

namespace Sys2Proof

/-- `Vec n`, an ordered sequence of n bits; position 1 is the most significant bit (R7, R10). -/
abbrev Vec (n : Nat) := BitVec n

/-- A request word, 32 bits, bit 31 the most significant (R39). -/
abbrev Word := BitVec 32

/-- The status field `RSP.STAT` of a response, 2 bits (R17). -/
abbrev Status := BitVec 2

/-- The data field `RSP.DATA` of a response, 16 bits (R17). -/
abbrev Data := BitVec 16

end Sys2Proof
end

