-- ==== Sys2Proof/Config.lean ====
section
/-! DEFINITION. What is fixed for one machine: the shape of the configuration record `TABLES` (00_scope.md R6,
40_bitvector.md R58, R60, 41_sbox.md R79), and the free values, which the spec leaves unspecified. The
literal tables stand in Machine/Tables.lean. -/

namespace Sys2Proof

/-- The eight tables as plain lists, nothing checked: what a `TABLES` argument is before it is accepted
(R6, 92_eei_decisions.md D13). Permutation entries are 1-based positions; an S-box is its list of rows. -/
structure RawTables where
  p10 : List Nat
  p8 : List Nat
  ip : List Nat
  ipInv : List Nat
  ep : List Nat
  p4 : List Nat
  s0 : List (List Nat)
  s1 : List (List Nat)
  deriving DecidableEq, Repr

/-- A permutation table n→m: `T[1]` to `T[m]`, each a position from 1 to n (R58, R60). -/
structure PermTable (n m : Nat) where
  entries : List Nat
  shape : entries.length = m
  inRange : ∀ e ∈ entries, 1 ≤ e ∧ e ≤ n
  deriving DecidableEq, Repr

/-- An S-box: four rows of four numbers, each 0 to 3 (R79). -/
structure SBox where
  rows : List (List Nat)
  shape : rows.length = 4 ∧ ∀ r ∈ rows, r.length = 4
  inRange : ∀ r ∈ rows, ∀ x ∈ r, x ≤ 3
  deriving DecidableEq, Repr

/-- `T[i]`, the entry at the 1-based place i. Every call has 1 ≤ i ≤ m; at any other place the answer is 0,
which is no position (notes/assumptions/16.md). -/
def PermTable.entry {n m : Nat} (T : PermTable n m) (i : Nat) : Nat :=
  if i = 0 then 0 else T.entries.getD (i - 1) 0

/-- The configuration record `TABLES`, accepted: every line of R60 and R79 holds, so an instance that
breaks one of them cannot be built (R60, R118, 92_eei_decisions.md D23). -/
structure Tables where
  p10 : PermTable 10 10
  p8 : PermTable 10 8
  ip : PermTable 8 8
  ipInv : PermTable 8 8
  ep : PermTable 4 8
  p4 : PermTable 4 4
  s0 : SBox
  s1 : SBox
  /-- "`IP[IPinv[i]] = i` for i = 1 to 8" (R60). -/
  inverse : ∀ i < 8, ip.entry (ipInv.entry (i + 1)) = i + 1

namespace Config

/-- What `REQ` holds after the n-th `rst` event: unspecified (R25, R131). Nothing is known of it. -/
opaque freeReq : Nat → Word

/-- What `W` holds after the n-th `rst` event: unspecified (R25, R131). -/
opaque freeW : Nat → Vec 8

/-- What `RSP.STAT` holds after the n-th `rst` event: unspecified (R25, R131). -/
opaque freeStat : Nat → Status

/-- What `RSP.DATA` holds after the n-th `rst` event: unspecified (R25, R131). -/
opaque freeData : Nat → Data

end Config

end Sys2Proof
end

