-- ==== Sys2Proof/Machine/BitVector.lean ====
section
/-! DEFINITION. The bit vector utilities (40_bitvector.md R57 to R71): positions, slices and concatenation of
00_scope.md R8, and the component's three functions `permute`, `rotateLeft`, `xorBits`. All are pure and
total. -/

namespace Sys2Proof.Machine

/-- `v(i)`, the bit at the 1-based position i; position 1 is the most significant bit (R8, R10). Every call
has 1 ≤ i ≤ n; at any other position the answer is `false` (notes/assumptions/16.md). -/
def bit {n : Nat} (v : Vec n) (i : Nat) : Bool := if i = 0 then false else v.getMsbD (i - 1)

/-- The vector of length n whose position i is `f i`, for i from 1 to n. -/
def ofPositions : (n : Nat) → (Nat → Bool) → Vec n
  | 0, _ => 0#0
  | n + 1, f => (ofPositions n f).concat (f (n + 1))

/-- `v(i..i+len-1)`: the vector of the len positions of v from position i on (R8). -/
def slice {n : Nat} (v : Vec n) (i len : Nat) : Vec len := ofPositions len fun k => bit v (i - 1 + k)

/-- `permute(T, v)`: output position i is a copy of the input position that T names at i (R59). -/
def permute {n m : Nat} (T : PermTable n m) (v : Vec n) : Vec m := ofPositions m fun i => bit v (T.entry i)

/-- `rotateLeft(v, n)`: cyclic left rotation, `v'(i) = v(((i - 1 + n) mod L) + 1)` (R68). -/
def rotateLeft {L : Nat} (v : Vec L) (n : Nat) : Vec L := ofPositions L fun i => bit v ((i - 1 + n) % L + 1)

/-- `xorBits(a, b)`: element-wise exclusive-or of two vectors of one length (R69). -/
def xorBits {n : Nat} (a b : Vec n) : Vec n := a ^^^ b

/-- The left half of a block: positions 1 to 4 (R70). -/
def leftBlock (v : Vec 8) : Vec 4 := slice v 1 4

/-- The right half of a block: positions 5 to 8 (R70). -/
def rightBlock (v : Vec 8) : Vec 4 := slice v 5 4

/-- The left half of a permuted key: positions 1 to 5 (R70). -/
def leftKey (v : Vec 10) : Vec 5 := slice v 1 5

/-- The right half of a permuted key: positions 6 to 10 (R70). -/
def rightKey (v : Vec 10) : Vec 5 := slice v 6 5

end Sys2Proof.Machine
end

