-- ==== Sys2Proof/Syntax.lean ====
section
/-! DEFINITION. The syntax: the eleven instructions of 30_encoding.md R44 with their operands (R41), the
answer of the decoder, and the lines of the assembly notation (R53). -/

namespace Sys2Proof

/-- The eleven defined opcodes (R44), without operands. -/
inductive Op where
  | derive
  | enc
  | dec
  | permP10
  | permP8
  | permIp
  | permIpinv
  | permEp
  | permP4
  | sboxS0
  | sboxS1
  deriving DecidableEq, Repr

/-- One request the engine can execute: an opcode of R44 with the operands R41 gives it. Every operand has
exactly the width of its field, so every value of this type is well formed (R119: "there is no illegal
key, block, subkey, vector or nibble"). -/
inductive Instr where
  /-- DERIVE: the 10-bit master key (R93). -/
  | derive (key : Vec 10)
  /-- ENC: the plaintext block, K1, K2 (R113). -/
  | enc (block k1 k2 : Vec 8)
  /-- DEC: the ciphertext block, K1, K2, in the same places as for ENC (R114). -/
  | dec (block k1 k2 : Vec 8)
  /-- PERM.P10 (R73). -/
  | permP10 (v : Vec 10)
  /-- PERM.P8 (R74). -/
  | permP8 (v : Vec 10)
  /-- PERM.IP (R75). -/
  | permIp (v : Vec 8)
  /-- PERM.IPINV (R76). -/
  | permIpinv (v : Vec 8)
  /-- PERM.EP (R77). -/
  | permEp (v : Vec 4)
  /-- PERM.P4 (R78). -/
  | permP4 (v : Vec 4)
  /-- SBOX.S0 (R86). -/
  | sboxS0 (nibble : Vec 4)
  /-- SBOX.S1 (R87). -/
  | sboxS1 (nibble : Vec 4)
  deriving DecidableEq, Repr

/-- The opcode of an instruction. -/
def Instr.op : Instr → Op
  | .derive _ => .derive
  | .enc _ _ _ => .enc
  | .dec _ _ _ => .dec
  | .permP10 _ => .permP10
  | .permP8 _ => .permP8
  | .permIp _ => .permIp
  | .permIpinv _ => .permIpinv
  | .permEp _ => .permEp
  | .permP4 _ => .permP4
  | .sboxS0 _ => .sboxS0
  | .sboxS1 _ => .sboxS1

/-- What the decoder answers for a request word: an instruction, or one of the two rejections of R45,
each by its own name. -/
inductive Decoded where
  /-- The word is a well-formed request for this instruction. -/
  | ok (i : Instr)
  /-- The opcode is reserved: 0x0, 0xC, 0xD, 0xE or 0xF (R46); answered with `E_ILLEGAL`. -/
  | illegal
  /-- The opcode is defined and a must-be-zero bit is 1 (R47); answered with `E_MALFORMED`. -/
  | malformed
  deriving DecidableEq, Repr

/-- The lengths of an instruction's operands in the order of the assembly notation (R53, R41). -/
def Op.operandWidths : Op → List Nat
  | .derive => [10]
  | .enc => [8, 8, 8]
  | .dec => [8, 8, 8]
  | .permP10 => [10]
  | .permP8 => [10]
  | .permIp => [8]
  | .permIpinv => [8]
  | .permEp => [4]
  | .permP4 => [4]
  | .sboxS0 => [4]
  | .sboxS1 => [4]

/-- One line of the assembly notation (R53), already cut into its mnemonic and its operand literals. -/
inductive AsmLine where
  /-- A mnemonic followed by bit-string literals, position 1 leftmost. -/
  | request (op : Op) (operands : List (List Char))
  /-- The directive `.word`, a raw request word. -/
  | word (w : Word)
  /-- A comment line. -/
  | comment
  deriving DecidableEq, Repr

end Sys2Proof
end

