-- ==== Sys2Proof/Decode.lean ====
section
/-! DEFINITION. The decoder and the encoder of the request word (30_encoding.md R39 to R47), written from the
tables of R41 and R44. The decoder is total: it answers every one of the 2^32 words, and rejects by name.
The check order is R45's: the opcode first, then the must-be-zero bits. -/

namespace Sys2Proof

/-- The field `OPC`, bits 31:28 (R40). -/
def opcOf (w : Word) : BitVec 4 := w.extractLsb' 28 4

/-- The field `RSV`, bits 27:24 (R40). -/
def rsvOf (w : Word) : BitVec 4 := w.extractLsb' 24 4

/-- The operand of the one-operand instructions, right-aligned in `PAY`: `w[n-1:0]` (R41). -/
def lowField (n : Nat) (w : Word) : Vec n := w.extractLsb' 0 n

/-- The block field of ENC and DEC, `w[23:16]` (R41). -/
def blockField (w : Word) : Vec 8 := w.extractLsb' 16 8

/-- The K1 field of ENC and of DEC, `w[15:8]` (R41). -/
def k1Field (w : Word) : Vec 8 := w.extractLsb' 8 8

/-- The K2 field of ENC and of DEC, `w[7:0]` (R41). -/
def k2Field (w : Word) : Vec 8 := w.extractLsb' 0 8

/-- The opcode value of each instruction (R44). -/
def Op.code : Op → BitVec 4
  | .derive => 0x1#4
  | .enc => 0x2#4
  | .dec => 0x3#4
  | .permP10 => 0x4#4
  | .permP8 => 0x5#4
  | .permIp => 0x6#4
  | .permIpinv => 0x7#4
  | .permEp => 0x8#4
  | .permP4 => 0x9#4
  | .sboxS0 => 0xA#4
  | .sboxS1 => 0xB#4

/-- The instruction an opcode value selects; 0x0 and 0xC to 0xF select none (R44, R46). -/
def Op.ofCode? (c : BitVec 4) : Option Op :=
  match c.toNat with
  | 0x1 => some .derive
  | 0x2 => some .enc
  | 0x3 => some .dec
  | 0x4 => some .permP10
  | 0x5 => some .permP8
  | 0x6 => some .permIp
  | 0x7 => some .permIpinv
  | 0x8 => some .permEp
  | 0x9 => some .permP4
  | 0xA => some .sboxS0
  | 0xB => some .sboxS1
  | _ => none

/-- The must-be-zero mask of each instruction (R41). -/
def Op.mbz : Op → Word
  | .derive => 0x0FFFFC00#32
  | .enc => 0x0F000000#32
  | .dec => 0x0F000000#32
  | .permP10 => 0x0FFFFC00#32
  | .permP8 => 0x0FFFFC00#32
  | .permIp => 0x0FFFFF00#32
  | .permIpinv => 0x0FFFFF00#32
  | .permEp => 0x0FFFFFF0#32
  | .permP4 => 0x0FFFFFF0#32
  | .sboxS0 => 0x0FFFFFF0#32
  | .sboxS1 => 0x0FFFFFF0#32

/-- The instruction with its operands taken from their fields as they stand (R41, R42). -/
def Op.instr (op : Op) (w : Word) : Instr :=
  match op with
  | .derive => .derive (lowField 10 w)
  | .enc => .enc (blockField w) (k1Field w) (k2Field w)
  | .dec => .dec (blockField w) (k1Field w) (k2Field w)
  | .permP10 => .permP10 (lowField 10 w)
  | .permP8 => .permP8 (lowField 10 w)
  | .permIp => .permIp (lowField 8 w)
  | .permIpinv => .permIpinv (lowField 8 w)
  | .permEp => .permEp (lowField 4 w)
  | .permP4 => .permP4 (lowField 4 w)
  | .sboxS0 => .sboxS0 (lowField 4 w)
  | .sboxS1 => .sboxS1 (lowField 4 w)

/-- The decoder (R45): first the opcode, then the must-be-zero bits, then the operands. -/
def decode (w : Word) : Decoded :=
  match Op.ofCode? (opcOf w) with
  | none => .illegal
  | some op => if w &&& op.mbz = 0 then .ok (op.instr w) else .malformed

/-- The request word of an instruction: its opcode, zeros in `RSV` and in the unused bits of `PAY`, and
each operand in its field (R40, R41, R44). -/
def encode : Instr → Word
  | .derive key => 0x1#4 ++ 0#18 ++ key
  | .enc block k1 k2 => 0x2#4 ++ 0#4 ++ block ++ k1 ++ k2
  | .dec block k1 k2 => 0x3#4 ++ 0#4 ++ block ++ k1 ++ k2
  | .permP10 v => 0x4#4 ++ 0#18 ++ v
  | .permP8 v => 0x5#4 ++ 0#18 ++ v
  | .permIp v => 0x6#4 ++ 0#20 ++ v
  | .permIpinv v => 0x7#4 ++ 0#20 ++ v
  | .permEp v => 0x8#4 ++ 0#24 ++ v
  | .permP4 v => 0x9#4 ++ 0#24 ++ v
  | .sboxS0 nibble => 0xA#4 ++ 0#24 ++ nibble
  | .sboxS1 nibble => 0xB#4 ++ 0#24 ++ nibble

/-- The request word of an instruction whose bits, numbered as spec/opcode_table.json numbers them, are
`w`; every bit above `nbits` is 0. A request is one 32-bit word, so there is no byte order (R39, R30). -/
def tableWord (nbits w : Nat) : Word := BitVec.ofNat 32 (w % 2 ^ nbits)

/-- The instruction the decoder reads from a word of the opcode table; none where it rejects. -/
def decodeTableWord (nbits w : Nat) : Option Instr :=
  match decode (tableWord nbits w) with
  | .ok i => some i
  | .illegal => none
  | .malformed => none

end Sys2Proof
end

