-- ==== Sys2Proof/Machine/State.lean ====
section
/-! DEFINITION. The state of the machine. The engine's own state is exactly the four elements of 10_state.md
R13: the phase register `PH`, the request latch `REQ`, the working register `W` and the response register
`RSP`. Beside it stands what one deterministic step needs of the outside: the host's moves still to come,
the responses the host has received, and the counter the free values are drawn from. -/

namespace Sys2Proof.Machine

/-- The seven values of the phase register `PH` (R14). -/
inductive Phase where
  | start
  | initialPermutation
  | round1
  | swap
  | round2
  | finalPermutation
  | done
  deriving DecidableEq, Repr

/-- A response: the fields `RSP.STAT` and `RSP.DATA` (R17, R43). -/
structure Response where
  stat : Status
  data : Data
  deriving DecidableEq, Repr

/-- The engine's whole state (R13): "A model's state record has these fields and no more." -/
structure Engine where
  /-- `PH`, the sequencer state (R14). -/
  ph : Phase
  /-- `REQ`, the ENC or DEC request being executed (R15). -/
  req : Word
  /-- `W`, the block as it passes through the phases (R16). -/
  w : Vec 8
  /-- `RSP`, the response of the last completed request (R17). -/
  rsp : Response
  deriving DecidableEq, Repr

/-- A move of the host (R24, R27). -/
inductive Move where
  /-- Issue a request word (R45); enabled iff `PH = Start`. -/
  | issue (word : Word)
  /-- Take the response (R110); enabled iff `PH = Done`. -/
  | take
  /-- The reset event (R131); always enabled. -/
  | rst
  /-- The host lets one step go by: it may act "at once or after any delay" (R141). -/
  | idle
  deriving DecidableEq, Repr

/-- The whole state: the engine, and the outside world it meets at its ports. -/
structure State where
  /-- The engine's four state elements (R13). -/
  engine : Engine
  /-- The model's own: the moves the host has yet to make, the next one first (R19: "The program, in the
  sense of a list of requests, lives in the host"; notes/assumptions/3.md). -/
  moves : List Move
  /-- The model's own: the responses the host has received by `take`, the oldest first
  (notes/assumptions/4.md). -/
  received : List Response
  /-- The model's own: how many `rst` events have drawn free values (notes/assumptions/2.md). -/
  draws : Nat
  deriving DecidableEq, Repr

/-- Reasons to stop with a fault: none. "The engine therefore has no assertion, no fatal state and no check
for them at run time" (R118); errors are responses, so no step raises a fault (safe:
notes/assumptions/10.md). -/
inductive Fault where
  deriving DecidableEq, Repr

/-- Reasons to refuse. -/
inductive Refusal where
  /-- Raised by an arm of `exec` for an instruction without a meaning; none is left (safe). -/
  | notModelled (mnemonic : String)
  /-- Raised by `configuredStep` for a `TABLES` argument that breaks R60 or R79: "must refuse an instance
  that breaks this rule" (R60, R118); the machine does not run on it (safe). -/
  | tablesRefused
  deriving DecidableEq, Repr

/-- The engine after reset (R25): `PH = Start`. `REQ`, `W` and `RSP` are unspecified in the spec; the model
names zero for each (DESIGN CHOICE, unsafe: notes/assumptions/1.md); no rule reads them (R26). -/
def Engine.reset : Engine := { ph := .start, req := 0, w := 0, rsp := { stat := 0, data := 0 } }

/-- The machine right after reset (R25, R133): the engine idle, no host move placed, no response received. -/
def State.reset : State := { engine := Engine.reset, moves := [], received := [], draws := 0 }

/-- The state with another engine part. -/
def State.withEngine (s : State) (e : Engine) : State := { s with engine := e }

/-- The state with other host moves to come. -/
def State.withMoves (s : State) (ms : List Move) : State := { s with moves := ms }

end Sys2Proof.Machine
end

