-- ==== Sys2Proof/Machine/Operands.lean ====
section
/-! DEFINITION. Operands and results: the subkeys a round reads from `REQ` (44_cipher_driver.md R102), and the
places of a result in `RSP.DATA` (30_encoding.md R49). -/

namespace Sys2Proof.Machine

/-- The direction of the request in flight: encrypt iff `REQ[31:28] = 0x2` (R102). -/
def encrypts (req : Word) : Bool := opcOf req == Op.enc.code

/-- The subkey of Round1: K1 for ENC, K2 for DEC (R102, R106). -/
def round1Key (req : Word) : Vec 8 := if encrypts req then k1Field req else k2Field req

/-- The subkey of Round2: K2 for ENC, K1 for DEC (R102, R108). -/
def round2Key (req : Word) : Vec 8 := if encrypts req then k2Field req else k1Field req

/-- `zext_16(fld(r))`: a result vector right-aligned in `DATA`, zeros above (R49). -/
def resultData {n : Nat} (r : Vec n) : Data := r.setWidth 16

/-- The DERIVE result: K1 in `DATA[15:8]`, K2 in `DATA[7:0]` (R49, R93). -/
def subkeyData (ks : Vec 8 × Vec 8) : Data := ks.1 ++ ks.2

/-- The length of an instruction's result in `DATA` (R49). -/
def resultWidth : Op → Nat
  | .derive => 16
  | .enc => 8
  | .dec => 8
  | .permP10 => 10
  | .permP8 => 8
  | .permIp => 8
  | .permIpinv => 8
  | .permEp => 8
  | .permP4 => 4
  | .sboxS0 => 2
  | .sboxS1 => 2

end Sys2Proof.Machine
end

