-- ==== Sys2Proof/Machine/Flags.lean ====
section
/-! DEFINITION. The status codes. The engine has no condition codes: "the only status the engine produces is
`RSP.STAT`" (10_state.md R20). Its values are those of 30_encoding.md R43; 3 is reserved, never produced. -/

namespace Sys2Proof.Machine

/-- `OK` = 0 (R43). -/
def statOk : Status := 0#2

/-- `E_MALFORMED` = 1: a must-be-zero bit is 1 (R116). -/
def statMalformed : Status := 1#2

/-- `E_ILLEGAL` = 2: the opcode is reserved (R117). -/
def statIllegal : Status := 2#2

end Sys2Proof.Machine
end

