-- ==== Sys2Proof/Machine/Ops.lean ====
section
/-! DEFINITION. The shared operations on the state: writing a response, reporting an error (the engine's only
exception mechanism, 60_exceptions.md R121), taking a response (the return from an error too, R122), the
reset event, and the acceptance of a request at `PH = Start`. -/

namespace Sys2Proof.Machine

/-- `respond(stat, data)`: both fields of `RSP` written and `PH <- Done`, all in one step (R43). -/
def respond (stat : Status) (data : Data) (e : Engine) : Engine :=
  { e with ph := .done, rsp := { stat := stat, data := data } }

/-- `error(E)`: `respond(E, 0)`. Nothing is saved and no computation is done (R121). -/
def reportError (stat : Status) (e : Engine) : Engine := respond stat 0 e

/-- `take`: the host receives the pair (`RSP.STAT`, `RSP.DATA`) and `PH <- Start`; nothing else changes
(R110). The return from an error response is the same step (R122). -/
def takeResponse (s : State) : State :=
  { s with engine := { s.engine with ph := .start }, received := s.received ++ [s.engine.rsp] }

/-- The `rst` event: `PH <- Start`; `REQ`, `W` and `RSP` are unspecified afterwards, "whatever they held
before", so each is a free value (R131; notes/assumptions/2.md). What it "does to the host's own
bookkeeping" R143 leaves open: that the moves still to come and the responses already received stay as they
are is the model's choice (notes/assumptions/20.md). -/
def resetEvent (s : State) : State :=
  { s with
    engine :=
      { ph := .start
        req := Config.freeReq s.draws
        w := Config.freeW s.draws
        rsp := { stat := Config.freeStat s.draws, data := Config.freeData s.draws } }
    draws := s.draws + 1 }

/-- A request is accepted iff `PH = Start`, and then has the effect f on the engine; at any other phase it
"is not accepted, not queued and not partly latched", so nothing changes (R136; notes/assumptions/5.md). -/
def accept (f : Engine → Engine) (s : State) : Host.Outcome State Fault Refusal :=
  .next (if s.engine.ph = .start then s.withEngine (f s.engine) else s)

end Sys2Proof.Machine
end

