-- ==== Sys2Proof/Machine/Tables.lean ====
section
/-! DEFINITION. The literal tables and the check that accepts or refuses a `TABLES` argument. The literals are
the standard S-DES values of 40_bitvector.md R61 to R66 and 41_sbox.md R80, R81, the default of the
parameter `TABLES` (UNVERIFIED, unsafe: notes/assumptions/7.md). -/

namespace Sys2Proof.Machine

/-- The default value of `TABLES` (R61 to R66, R80, R81). -/
def standardTables : RawTables :=
  { p10 := [3, 5, 2, 7, 4, 10, 1, 9, 8, 6]
    p8 := [6, 3, 7, 4, 8, 5, 10, 9]
    ip := [2, 6, 3, 1, 4, 8, 5, 7]
    ipInv := [4, 1, 3, 5, 7, 2, 8, 6]
    ep := [4, 1, 2, 3, 2, 3, 4, 1]
    p4 := [2, 4, 3, 1]
    s0 := [[1, 0, 3, 2], [3, 2, 1, 0], [0, 2, 1, 3], [3, 1, 3, 2]]
    s1 := [[0, 1, 2, 3], [2, 0, 1, 3], [3, 0, 1, 0], [2, 1, 0, 3]] }

/-- Accept a list as a permutation table n→m: m entries, each from 1 to n (R60). -/
def permTable? (n m : Nat) (l : List Nat) : Option (PermTable n m) :=
  if h : l.length = m ∧ ∀ e ∈ l, 1 ≤ e ∧ e ≤ n then some ⟨l, h.1, h.2⟩ else none

/-- Accept four rows as an S-box: four rows of four entries, each 0 to 3 (R79). -/
def sBox? (rows : List (List Nat)) : Option SBox :=
  if h : (rows.length = 4 ∧ ∀ r ∈ rows, r.length = 4) ∧ ∀ r ∈ rows, ∀ x ∈ r, x ≤ 3 then some ⟨rows, h.1, h.2⟩
  else none

/-- The check made once, at configuration time (R60, R79, R118; 92_eei_decisions.md D23): an instance that
breaks a line of R60 or R79 is refused. -/
def configure (r : RawTables) : Option Tables :=
  match permTable? 10 10 r.p10, permTable? 10 8 r.p8, permTable? 8 8 r.ip, permTable? 8 8 r.ipInv,
    permTable? 4 8 r.ep, permTable? 4 4 r.p4, sBox? r.s0, sBox? r.s1 with
  | some p10, some p8, some ip, some ipInv, some ep, some p4, some s0, some s1 =>
    if h : ∀ i < 8, ip.entry (ipInv.entry (i + 1)) = i + 1 then some ⟨p10, p8, ip, ipInv, ep, p4, s0, s1, h⟩
    else none
  | _, _, _, _, _, _, _, _ => none

/-- The accepted tables this machine is built with: the default of R6. -/
def tables : Tables :=
  { p10 := ⟨standardTables.p10, by decide, by decide⟩
    p8 := ⟨standardTables.p8, by decide, by decide⟩
    ip := ⟨standardTables.ip, by decide, by decide⟩
    ipInv := ⟨standardTables.ipInv, by decide, by decide⟩
    ep := ⟨standardTables.ep, by decide, by decide⟩
    p4 := ⟨standardTables.p4, by decide, by decide⟩
    s0 := ⟨standardTables.s0, by decide, by decide⟩
    s1 := ⟨standardTables.s1, by decide, by decide⟩
    inverse := by decide }

end Sys2Proof.Machine
end

