-- ==== Sys2Proof/Machine/Substitution.lean ====
section
/-! DEFINITION. The S-boxes (41_sbox.md): `substitute` (R82) and the instructions SBOX.S0 and SBOX.S1 (R85 to
R87). -/

namespace Sys2Proof.Machine

/-- The row index: "2 · x(1) + x(4)", the first and the last bit (R82). -/
def sboxRow (x : Vec 4) : Nat := 2 * (bit x 1).toNat + (bit x 4).toNat

/-- The column index: "2 · x(2) + x(3)", the two middle bits (R82). -/
def sboxCol (x : Vec 4) : Nat := 2 * (bit x 2).toNat + (bit x 3).toNat

/-- `S[r][c]`, rows and columns numbered 0 to 3 (R79). Both indexes are always in range (R83). -/
def sboxEntry (S : SBox) (r c : Nat) : Nat := (S.rows.getD r []).getD c 0

/-- `substitute(x, S)`: the entry at x's row and column as a 2-bit vector, most significant bit first (R82). -/
def substitute (x : Vec 4) (S : SBox) : Vec 2 := BitVec.ofNat 2 (sboxEntry S (sboxRow x) (sboxCol x))

/-- What both SBOX.* do, for their own box (R85). -/
def sboxIssue (S : SBox) (x : Vec 4) (e : Engine) : Engine := respond statOk (resultData (substitute x S)) e

/-- SBOX.S0 (R86). -/
def execSboxS0 (nibble : Vec 4) (s : State) : Host.Outcome State Fault Refusal :=
  accept (sboxIssue tables.s0 nibble) s

/-- SBOX.S1 (R87). -/
def execSboxS1 (nibble : Vec 4) (s : State) : Host.Outcome State Fault Refusal :=
  accept (sboxIssue tables.s1 nibble) s

end Sys2Proof.Machine
end

