-- ==== Sys2Proof/Machine/RoundFunction.lean ====
section
/-! DEFINITION. The round function f_k (43_round_function.md R94). It has no opcode (R98). -/

namespace Sys2Proof.Machine

/-- `F(R, k)`, steps 2 to 5 of R94: expand, XOR the subkey, substitute both halves, S0 first, compress. -/
def feistel (T : Tables) (right : Vec 4) (k : Vec 8) : Vec 4 :=
  let x := xorBits (permute T.ep right) k
  permute T.p4 (substitute (leftBlock x) T.s0 ++ substitute (rightBlock x) T.s1)

/-- `roundFunction(v, k) = xorBits(F(R, k), L) ‖ R` (R94). -/
def roundFunction (T : Tables) (v k : Vec 8) : Vec 8 :=
  xorBits (feistel T (rightBlock v) k) (leftBlock v) ++ rightBlock v

end Sys2Proof.Machine
end

