-- ==== Sys2Proof/Machine/Driver.lean ====
section
/-! DEFINITION. The cipher driver (44_cipher_driver.md): the functions of R99 to R101, the issue of ENC and DEC
(R104) and the five steps of the sequencer (R105 to R109). -/

namespace Sys2Proof.Machine

/-- `swapHalves(v) = v(5..8) ‖ v(1..4)` (R99). -/
def swapHalves (v : Vec 8) : Vec 8 := rightBlock v ++ leftBlock v

/-- The structure both directions share, with the subkey of each round: IP, round, swap, round, IP⁻¹, no
swap after the second round (R100, R101). -/
def cipher (T : Tables) (block ka kb : Vec 8) : Vec 8 :=
  permute T.ipInv (roundFunction T (swapHalves (roundFunction T (permute T.ip block) ka)) kb)

/-- `encryptBlock(p, K1, K2)`: K1 in the first round, K2 in the second (R100). -/
def encryptBlock (T : Tables) (p k1 k2 : Vec 8) : Vec 8 := cipher T p k1 k2

/-- `decryptBlock(c, K1, K2)`: the same with "subkey order reversed" (R101). -/
def decryptBlock (T : Tables) (c k1 k2 : Vec 8) : Vec 8 := cipher T c k2 k1

/-- Issue of ENC or DEC: `REQ <- w`, `W <- block`, `PH <- InitialPermutation`; `RSP` is not written (R104). -/
def issueBlock (req : Word) (e : Engine) : Engine :=
  { e with ph := .initialPermutation, req := req, w := blockField req }

/-- ENC: the issue step; the five engine steps follow by themselves (R113, R104). -/
def execEnc (block k1 k2 : Vec 8) (s : State) : Host.Outcome State Fault Refusal :=
  accept (issueBlock (encode (.enc block k1 k2))) s

/-- DEC: the issue step, K1 and K2 in the same places as for ENC (R114, R104). -/
def execDec (block k1 k2 : Vec 8) (s : State) : Host.Outcome State Fault Refusal :=
  accept (issueBlock (encode (.dec block k1 k2))) s

/-- InitialPermutation step: `W <- permute(IP, W); PH <- Round1` (R105). -/
def initialPermutationStep (T : Tables) (e : Engine) : Engine := { e with ph := .round1, w := permute T.ip e.w }

/-- Round1 step: `W <- roundFunction(W, ka); PH <- Swap` (R106). -/
def round1Step (T : Tables) (e : Engine) : Engine :=
  { e with ph := .swap, w := roundFunction T e.w (round1Key e.req) }

/-- Swap step: `W <- swapHalves(W); PH <- Round2` (R107). -/
def swapStep (e : Engine) : Engine := { e with ph := .round2, w := swapHalves e.w }

/-- Round2 step: `W <- roundFunction(W, kb); PH <- FinalPermutation` (R108). -/
def round2Step (T : Tables) (e : Engine) : Engine :=
  { e with ph := .finalPermutation, w := roundFunction T e.w (round2Key e.req) }

/-- FinalPermutation step: `r = permute(IPinv, W); W <- r; respond(OK, zext_16(fld(r)))` (R109). -/
def finalPermutationStep (T : Tables) (e : Engine) : Engine :=
  respond statOk (resultData (permute T.ipInv e.w)) { e with w := permute T.ipInv e.w }

/-- The engine's own step: one is enabled at each middle value of `PH` and none at `Start` and `Done`,
where the engine waits (R27, R130, R137). -/
def engineStep (T : Tables) (e : Engine) : Engine :=
  match e.ph with
  | .start => e
  | .initialPermutation => initialPermutationStep T e
  | .round1 => round1Step T e
  | .swap => swapStep e
  | .round2 => round2Step T e
  | .finalPermutation => finalPermutationStep T e
  | .done => e

end Sys2Proof.Machine
end

