-- ==== Sys2Proof/Machine/KeySchedule.lean ====
section
/-! DEFINITION. The key schedule (42_key_schedule.md): `deriveSubkeys` (R88) and the instruction DERIVE (R93). -/

namespace Sys2Proof.Machine

/-- One round of the schedule: both halves rotated by the round index, each by itself (R88, R89). -/
def rotateHalves (hs : Vec 5 × Vec 5) (r : Nat) : Vec 5 × Vec 5 := (rotateLeft hs.1 r, rotateLeft hs.2 r)

/-- The subkey of a round: P8 of the two halves, left then right (R88). -/
def subkeyOf (T : Tables) (hs : Vec 5 × Vec 5) : Vec 8 := permute T.p8 (hs.1 ++ hs.2)

/-- `deriveSubkeys(k)`: round 1 rotates the halves of the P10 output by 1, round 2 rotates the halves that
round 1 produced by 2 more (R88). -/
def deriveSubkeys (T : Tables) (key : Vec 10) : Vec 8 × Vec 8 :=
  let p := permute T.p10 key
  let halves1 := rotateHalves (leftKey p, rightKey p) 1
  let halves2 := rotateHalves halves1 2
  (subkeyOf T halves1, subkeyOf T halves2)

/-- What DERIVE does: `respond(OK, fld(K1) * 256 + fld(K2))` (R93). -/
def deriveIssue (T : Tables) (key : Vec 10) (e : Engine) : Engine :=
  respond statOk (subkeyData (deriveSubkeys T key)) e

/-- DERIVE (R93). -/
def execDerive (key : Vec 10) (s : State) : Host.Outcome State Fault Refusal := accept (deriveIssue tables key) s

end Sys2Proof.Machine
end

