-- ==== Sys2Proof/Machine/Permutations.lean ====
section
/-! DEFINITION. The six PERM.* instructions (40_bitvector.md R72 to R78): `Start` to `Done` in the issue step,
`RSP <- (OK, zext_16(fld(permute(T, v))))`, `REQ` and `W` not written. -/

namespace Sys2Proof.Machine

/-- What every PERM.* does, for its own table (R72). -/
def permIssue {n m : Nat} (T : PermTable n m) (v : Vec n) (e : Engine) : Engine :=
  respond statOk (resultData (permute T v)) e

/-- PERM.P10 (R73). -/
def execPermP10 (v : Vec 10) (s : State) : Host.Outcome State Fault Refusal := accept (permIssue tables.p10 v) s

/-- PERM.P8 (R74). -/
def execPermP8 (v : Vec 10) (s : State) : Host.Outcome State Fault Refusal := accept (permIssue tables.p8 v) s

/-- PERM.IP (R75). -/
def execPermIp (v : Vec 8) (s : State) : Host.Outcome State Fault Refusal := accept (permIssue tables.ip v) s

/-- PERM.IPINV (R76). -/
def execPermIpinv (v : Vec 8) (s : State) : Host.Outcome State Fault Refusal :=
  accept (permIssue tables.ipInv v) s

/-- PERM.EP (R77). -/
def execPermEp (v : Vec 4) (s : State) : Host.Outcome State Fault Refusal := accept (permIssue tables.ep v) s

/-- PERM.P4 (R78). -/
def execPermP4 (v : Vec 4) (s : State) : Host.Outcome State Fault Refusal := accept (permIssue tables.p4 v) s

end Sys2Proof.Machine
end

