-- ==== Sys2Proof/Machine/Dispatch.lean ====
section
/-! DEFINITION. The dispatch of R45: one arm per instruction, each a call of its meaning. -/

namespace Sys2Proof.Machine

def exec (i : Instr) (s : State) : Host.Outcome State Fault Refusal :=
  match i with
  | .derive key => Sys2Proof.Machine.execDerive key s
  | .enc block k1 k2 => Sys2Proof.Machine.execEnc block k1 k2 s
  | .dec block k1 k2 => Sys2Proof.Machine.execDec block k1 k2 s
  | .permP10 v => Sys2Proof.Machine.execPermP10 v s
  | .permP8 v => Sys2Proof.Machine.execPermP8 v s
  | .permIp v => Sys2Proof.Machine.execPermIp v s
  | .permIpinv v => Sys2Proof.Machine.execPermIpinv v s
  | .permEp v => Sys2Proof.Machine.execPermEp v s
  | .permP4 v => Sys2Proof.Machine.execPermP4 v s
  | .sboxS0 nibble => Sys2Proof.Machine.execSboxS0 nibble s
  | .sboxS1 nibble => Sys2Proof.Machine.execSboxS1 nibble s

end Sys2Proof.Machine
end

