-- ==== Sys2Proof/Machine/Port.lean ====
section
/-! DEFINITION. The ports (10_state.md R24): the four outputs, the issue step on a raw request word
(30_encoding.md R45), which agent moves next (R27), and when a run is over (R143). `run` is the meaning of an instruction: the step of
this machine passes `exec`. -/

namespace Sys2Proof.Machine

/-- `req_ready`: 1 iff `PH = Start` (R24). -/
def reqReady (s : State) : Bool := s.engine.ph == .start

/-- `rsp_valid`: 1 iff `PH = Done` (R24). -/
def rspValid (s : State) : Bool := s.engine.ph == .done

/-- `rsp_stat`: `RSP.STAT` when `rsp_valid = 1`, and no value otherwise: "unspecified otherwise" (R24;
notes/assumptions/6.md). -/
def rspStat (s : State) : Option Status := if rspValid s then some s.engine.rsp.stat else none

/-- `rsp_data`: `RSP.DATA` when `rsp_valid = 1`, and no value otherwise (R24; notes/assumptions/6.md). -/
def rspData (s : State) : Option Data := if rspValid s then some s.engine.rsp.data else none

/-- The issue step at `PH = Start`: a reserved opcode is answered with `E_ILLEGAL`, a nonzero must-be-zero
bit with `E_MALFORMED`, and everything else is executed (R45; notes/assumptions/14.md). -/
def issueWord (run : Instr → State → Host.Outcome State Fault Refusal) (w : Word) (s : State) :
    Host.Outcome State Fault Refusal :=
  match decode w with
  | .ok i => run i s
  | .illegal => .next (s.withEngine (reportError statIllegal s.engine))
  | .malformed => .next (s.withEngine (reportError statMalformed s.engine))

/-- No host move is enabled: the engine takes its own step, or waits where it has none (R27, R130). -/
def engineTurn (T : Tables) (s : State) : Host.Outcome State Fault Refusal :=
  .next (s.withEngine (engineStep T s.engine))

/-- One step of engine and host together. The host's next move is made if it is enabled; otherwise it stays
where it is, presented again at the next step (R136), and the engine has its turn
(notes/assumptions/3.md). -/
def portStep (run : Instr → State → Host.Outcome State Fault Refusal) (T : Tables) (s : State) :
    Host.Outcome State Fault Refusal :=
  match s.moves with
  | [] => engineTurn T s
  | .idle :: rest => engineTurn T (s.withMoves rest)
  | .rst :: rest => .next (resetEvent (s.withMoves rest))
  | .take :: rest => if s.engine.ph = .done then .next (takeResponse (s.withMoves rest)) else engineTurn T s
  | .issue w :: rest => if s.engine.ph = .start then issueWord run w (s.withMoves rest) else engineTurn T s

/-- The requests the host has still to issue, in order. -/
def requestsLeft : List Move → List Word
  | [] => []
  | .issue w :: rest => w :: requestsLeft rest
  | .take :: rest => requestsLeft rest
  | .rst :: rest => requestsLeft rest
  | .idle :: rest => requestsLeft rest

/-- A run is over "when the last response has been taken and `PH = Start`"; a state with `PH` a middle value or
`Done` is not final (R143). At `Start` no response is held, so the last response has been taken iff no request
is left; any other move left over does not keep the run going (notes/assumptions/21.md). -/
def runOver (s : State) : Bool := s.engine.ph == .start && (requestsLeft s.moves).isEmpty

end Sys2Proof.Machine
end

