-- ==== Sys2Proof/Machine/Step.lean ====
section
/-! DEFINITION. The step of this machine, with the default `TABLES`, and how the host's checks place one request
word where the next step issues it. -/

namespace Sys2Proof.Machine

/-- One step: a host move that is enabled, or else the engine's own step (R27). -/
def step (s : State) : Host.Outcome State Fault Refusal := portStep exec tables s

/-- The state in which the very next step issues the request whose table bits are `w`: the engine idle, the
request the host's next move (notes/assumptions/9.md). -/
def State.withFetchWord (s : State) (nbits w : Nat) : State :=
  { s with engine := { s.engine with ph := .start }, moves := .issue (tableWord nbits w) :: s.moves }

end Sys2Proof.Machine
end

