-- ==== Sys2Proof/Machine/Configured.lean ====
section
/-! DEFINITION. The machine as a function of its parameter `TABLES` (00_scope.md R6, 92_eei_decisions.md D13,
D23): the same engine on any accepted tables, and the refusal of tables that break 40_bitvector.md R60 or
41_sbox.md R79 (notes/assumptions/8.md). -/

namespace Sys2Proof.Machine

/-- The effect of issuing an instruction at `PH = Start`, on the tables T (R45). -/
def issueEffect (T : Tables) : Instr → Engine → Engine
  | .derive key => deriveIssue T key
  | .enc block k1 k2 => issueBlock (encode (.enc block k1 k2))
  | .dec block k1 k2 => issueBlock (encode (.dec block k1 k2))
  | .permP10 v => permIssue T.p10 v
  | .permP8 v => permIssue T.p8 v
  | .permIp v => permIssue T.ip v
  | .permIpinv v => permIssue T.ipInv v
  | .permEp v => permIssue T.ep v
  | .permP4 v => permIssue T.p4 v
  | .sboxS0 nibble => sboxIssue T.s0 nibble
  | .sboxS1 nibble => sboxIssue T.s1 nibble

/-- What issuing a request word at `PH = Start` does to the engine (R45). -/
def issueWordEffect (T : Tables) (w : Word) (e : Engine) : Engine :=
  match decode w with
  | .ok i => issueEffect T i e
  | .illegal => reportError statIllegal e
  | .malformed => reportError statMalformed e

/-- One step of the machine whose tables are T. -/
def stepWith (T : Tables) (s : State) : Host.Outcome State Fault Refusal :=
  portStep (fun i => accept (issueEffect T i)) T s

/-- One step of the machine given a raw `TABLES` argument: "an instance that breaks 40_bitvector.md rule R60 or
41_sbox.md rule R79 is refused, not run" (R118). -/
def configuredStep (r : RawTables) (s : State) : Host.Outcome State Fault Refusal :=
  match configure r with
  | some T => stepWith T s
  | none => .refused .tablesRefused

end Sys2Proof.Machine
end

