-- ==== Sys2Proof/WellFormed.lean ====
section
/-! DEFINITION. When a line of the assembly notation is well formed (30_encoding.md R53): the right number of
operands, each "of exactly its field's length", and each character `0` or `1`. An `Instr` needs no check
of its own: its operand types have the widths of the fields (R41), and R119 makes every value legal. -/

namespace Sys2Proof

/-- A character of a bit-string literal: `0` or `1` (R53). -/
def isBinaryChar (c : Char) : Bool := c == '0' || c == '1'

/-- A literal has exactly the length of its field and holds only `0` and `1` (R53). -/
def literalOk (width : Nat) (cs : List Char) : Bool := cs.length == width && cs.all isBinaryChar

/-- The literals match the widths one by one, none missing and none left over. -/
def literalsOk : List Nat → List (List Char) → Bool
  | [], [] => true
  | n :: ns, cs :: css => literalOk n cs && literalsOk ns css
  | _, _ => false

/-- A line the assembler accepts (R53). A raw word is always accepted, whatever its bits. -/
def AsmLine.wf : AsmLine → Bool
  | .request op operands => literalsOk op.operandWidths operands
  | .word _ => true
  | .comment => true

end Sys2Proof
end

