-- ==== Sys2Proof/Machine/HostSide.lean ====
section
/-! DEFINITION. The host's side of the interface: the assembler of 30_encoding.md R53, the macros ENCRYPT and
DECRYPT (R54, R55) and the text protocol in terms of them (R56). None of it is part of the engine
(notes/assumptions/15.md, 17.md). -/

namespace Sys2Proof.Machine

/-- The vector a bit-string literal stands for, position 1 leftmost (R8, R31); none if the literal has
another length or another character (R53). -/
def parseBits (n : Nat) (cs : List Char) : Option (Vec n) :=
  if literalOk n cs then some (ofPositions n fun i => cs.getD (i - 1) '0' == '1') else none

/-- A vector written as a bit string, position 1 leftmost (R8, R31). -/
def renderBits {n : Nat} (v : Vec n) : List Char :=
  (List.range n).map fun k => if bit v (k + 1) then '1' else '0'

/-- The three literals of an ENC or DEC line, in the order block, K1, K2 (R53). -/
def parseBlockOperands (operands : List (List Char)) : Option (Vec 8 × Vec 8 × Vec 8) :=
  match operands with
  | [b, x, y] =>
    match parseBits 8 b, parseBits 8 x, parseBits 8 y with
    | some b, some x, some y => some (b, x, y)
    | _, _, _ => none
  | _ => none

/-- The one literal of every other line (R53). -/
def parseOneOperand (n : Nat) (operands : List (List Char)) : Option (Vec n) :=
  match operands with
  | [v] => parseBits n v
  | _ => none

/-- The instruction a request line names; none where the assembler refuses the line (R53). -/
def parseRequest (op : Op) (operands : List (List Char)) : Option Instr :=
  match op with
  | .derive => (parseOneOperand 10 operands).map .derive
  | .enc => (parseBlockOperands operands).map fun p => .enc p.1 p.2.1 p.2.2
  | .dec => (parseBlockOperands operands).map fun p => .dec p.1 p.2.1 p.2.2
  | .permP10 => (parseOneOperand 10 operands).map .permP10
  | .permP8 => (parseOneOperand 10 operands).map .permP8
  | .permIp => (parseOneOperand 8 operands).map .permIp
  | .permIpinv => (parseOneOperand 8 operands).map .permIpinv
  | .permEp => (parseOneOperand 4 operands).map .permEp
  | .permP4 => (parseOneOperand 4 operands).map .permP4
  | .sboxS0 => (parseOneOperand 4 operands).map .sboxS0
  | .sboxS1 => (parseOneOperand 4 operands).map .sboxS1

/-- The operands of an instruction as the literals of its line, in the order block, K1, K2 (R53). -/
def operandLiterals : Instr → List (List Char)
  | .derive key => [renderBits key]
  | .enc block k1 k2 => [renderBits block, renderBits k1, renderBits k2]
  | .dec block k1 k2 => [renderBits block, renderBits k1, renderBits k2]
  | .permP10 v => [renderBits v]
  | .permP8 v => [renderBits v]
  | .permIp v => [renderBits v]
  | .permIpinv v => [renderBits v]
  | .permEp v => [renderBits v]
  | .permP4 v => [renderBits v]
  | .sboxS0 nibble => [renderBits nibble]
  | .sboxS1 nibble => [renderBits nibble]

/-- The request words of one line: one for a request or a `.word`, none for a comment; the whole answer is
`none` where the assembler refuses the line (R53). -/
def assembleLine : AsmLine → Option (List Word)
  | .request op operands => (parseRequest op operands).map fun i => [encode i]
  | .word w => some [w]
  | .comment => some []

/-- The request words of a program, line by line. R53 does not say what one refused line does to a program of several
lines: that the whole program is then refused, and the other lines give no words, is the model's choice
(notes/assumptions/15.md). -/
def assemble : List AsmLine → Option (List Word)
  | [] => some []
  | l :: ls =>
    match assembleLine l, assemble ls with
    | some ws, some rest => some (ws ++ rest)
    | _, _ => none

/-- The moves of a host program: each request issued and its response taken (95_test_vectors.md part 3). -/
def programMoves (ws : List Word) : List Move := ws.flatMap fun w => [.issue w, .take]

/-- k steps of a machine, stopping at the first fault or refusal. -/
def runFrom (st : State → Host.Outcome State Fault Refusal) : Nat → State → Host.Outcome State Fault Refusal
  | 0, s => .next s
  | k + 1, s =>
    match st s with
    | .next t => runFrom st k t
    | .fault r => .fault r
    | .refused r => .refused r

/-- k steps of this machine. -/
def stepN (k : Nat) (s : State) : Host.Outcome State Fault Refusal := runFrom step k s

/-- The host issues one request, lets it run and takes its response. Seven steps are enough for every
request: the issue, at most five engine steps, the take (R103, R141). R54 to R56 do not say what a macro or the
text protocol yields when it is started while `PH` is not `Start`, where its request has no step (R136): that it
then gives no result is the model's choice, as is the scheduling (notes/assumptions/17.md). -/
def ask (w : Word) (s : State) : Option (Response × State) :=
  if s.engine.ph = .start then
    match stepN 7 (s.withMoves [.issue w, .take]) with
    | .next t => t.received.getLast?.map fun r => (r, t)
    | .fault _ => none
    | .refused _ => none
  else none

/-- "`w = (OPC << 28) | (block << 16) | DATA`": the ENC or DEC request that carries a DERIVE response (R49). -/
def requestFromDerive (op : Op) (block : Vec 8) (data : Data) : Word := op.code ++ 0#4 ++ block ++ data

/-- A macro: DERIVE the subkeys of the key, check the status (R138), then issue the block operation. -/
def blockMacro (op : Op) (key : Vec 10) (block : Vec 8) (s : State) : Option (Response × State) :=
  match ask (encode (.derive key)) s with
  | some (r, t) => if r.stat = statOk then ask (requestFromDerive op block r.data) t else none
  | none => none

/-- The macro `ENCRYPT key, block` (R54). -/
def encryptRequests (key : Vec 10) (block : Vec 8) (s : State) : Option (Response × State) :=
  blockMacro .enc key block s

/-- The macro `DECRYPT key, block` (R55). -/
def decryptRequests (key : Vec 10) (block : Vec 8) (s : State) : Option (Response × State) :=
  blockMacro .dec key block s

/-- The text protocol (R56, R51): three input lines, the marker, the key and the block. The marker `E`
encrypts, any other value decrypts; the output line is the 8 result bits, position 1 first. Malformed text
is refused before any request is built (R119). -/
def textProtocol (marker key block : List Char) (s : State) : Option (List Char) :=
  match parseBits 10 key, parseBits 8 block with
  | some k, some b =>
    (if marker = ['E'] then encryptRequests k b s else decryptRequests k b s).map fun p =>
      renderBits (lowField 8 (p.1.data.setWidth 32))
  | _, _ => none

end Sys2Proof.Machine
end

