-- ==== Sys2Proof/Safety.lean ====
section
/-! DEFINITION. What a sound state of a run is, in the terms the statements use: the read-after-write
discipline of 10_state.md R26, the meaning of each phase (R14, 44_cipher_driver.md R103), when two states cannot
be told apart by a host, and how many steps a run can still take (70_reset_and_hazards.md R143). -/

namespace Sys2Proof.Machine

/-- `REQ` holds a well-formed ENC or DEC request: what the issue step may latch (R15, R104). -/
def latchedRequest (req : Word) : Prop := (opcOf req = Op.enc.code ∨ opcOf req = Op.dec.code) ∧ rsvOf req = 0

/-- What `W` holds in each middle phase of the request `req`: the block after the transformations of the
phases already passed (R14, R103). -/
def workingBlock (T : Tables) (req : Word) : Phase → Option (Vec 8)
  | .start => none
  | .initialPermutation => some (blockField req)
  | .round1 => some (permute T.ip (blockField req))
  | .swap => some (roundFunction T (permute T.ip (blockField req)) (round1Key req))
  | .round2 => some (swapHalves (roundFunction T (permute T.ip (blockField req)) (round1Key req)))
  | .finalPermutation =>
    some (roundFunction T (swapHalves (roundFunction T (permute T.ip (blockField req)) (round1Key req)))
      (round2Key req))
  | .done => none

/-- A response the engine may present: the status is not the reserved 3, and an error carries no data
(R17, R43). -/
def responseOk (r : Response) : Prop := r.stat ≠ 3 ∧ (r.stat ≠ statOk → r.data = 0)

/-- The invariant of a run (R26): at a middle phase `REQ` and `W` belong to one request, `W` being that
request's block as far as the driver has come; at `Done` the response is a legal one. -/
def Engine.Sound (e : Engine) : Prop :=
  (∀ v, workingBlock tables e.req e.ph = some v → latchedRequest e.req ∧ e.w = v) ∧
    (e.ph = .done → responseOk e.rsp)

/-- A sound state: a sound engine, and every response the host has received was a legal one. -/
def State.Sound (s : State) : Prop := s.engine.Sound ∧ ∀ r ∈ s.received, responseOk r

/-- What the host can see of the machine (R24): the ready and valid outputs, the response outputs while they
are valid, and the responses it has received. -/
def visible (s : State) : Bool × Bool × Option Status × Option Data × List Response :=
  (reqReady s, rspValid s, rspStat s, rspData s, s.received)

/-- Two states that differ only in what no rule reads: `REQ` and `W` outside the middle phases and `RSP` outside
`Done` (R22, R26), and the counter of free draws. -/
structure Alike (s s' : State) : Prop where
  ph : s.engine.ph = s'.engine.ph
  moves : s.moves = s'.moves
  received : s.received = s'.received
  latches : s.engine.ph ≠ .start → s.engine.ph ≠ .done → s.engine.req = s'.engine.req ∧ s.engine.w = s'.engine.w
  response : s.engine.ph = .done → s.engine.rsp = s'.engine.rsp

/-- The engine steps from a phase to `Done`; none at `Start` and `Done`, where the engine has no step (R103). -/
def engineStepsLeft : Phase → Nat
  | .start => 0
  | .initialPermutation => 5
  | .round1 => 4
  | .swap => 3
  | .round2 => 2
  | .finalPermutation => 1
  | .done => 0

/-- A bound on the steps of a run that still change something: each host move to come costs at most its own
step and the five engine steps of the request it issues. -/
def stepsLeft (s : State) : Nat := 6 * s.moves.length + engineStepsLeft s.engine.ph

end Sys2Proof.Machine
end

