-- ==== Sys2Proof/Certificates/Slice0/Obligations.lean ====
section
/-! DEFINITION. The statements for the provers. Each is about the machine, for all states and operands its
hypotheses name; its docstring says which rule of the spec it formalises. -/

open Sys2Proof Sys2Proof.Machine

namespace Sys2Proof.Machine

/-- The state after a response is written: `RSP` as given, `PH = Done`, everything else as before (R43). -/
def answered (s : State) (stat : Status) (data : Data) : State :=
  { s with engine := { s.engine with ph := .done, rsp := { stat := stat, data := data } } }

/-- The host's next move is the issue of w, and the engine is ready for it. -/
def Presents (s : State) (w : Word) (rest : List Move) : Prop :=
  s.engine.ph = .start ∧ s.moves = .issue w :: rest

/-- The host's next move is not a reset. -/
def NoResetNext (s : State) : Prop := ∀ rest, s.moves ≠ .rst :: rest

/-- The rule every one-operand request follows that completes in the issue step: its result and its frame, the
words that mean it, and the words of its opcode that are malformed. -/
def OneStepRequest {n : Nat} (c : BitVec 4) (mbz : Word) (instr : Vec n → Instr) (result : Vec n → Data) : Prop :=
  (∀ v s, s.engine.ph = .start → exec (instr v) s = .next (answered s 0#2 (result v))) ∧
  (∀ w, w.extractLsb' 28 4 = c → w &&& mbz = 0 → decode w = .ok (instr (w.extractLsb' 0 n))) ∧
  (∀ s w rest, Presents s w rest → w.extractLsb' 28 4 = c → w &&& mbz ≠ 0 →
    step s = .next (answered (s.withMoves rest) 1#2 0))

/-- The vector with a single 1, at position p. -/
def single (n p : Nat) : Vec n := BitVec.twoPow n (n - p)

/-- The corner cases common to all permutations: only copying of bits. -/
def CopiesBits {n m : Nat} (T : PermTable n m) : Prop :=
  permute T 0 = 0 ∧ permute T (BitVec.allOnes n) = BitVec.allOnes m ∧
  ∀ p i, 1 ≤ p → p ≤ n → 1 ≤ i → i ≤ m → bit (permute T (single n p)) i = decide (T.entry i = p)

/-- How many 1s a vector holds. -/
def ones {n : Nat} (v : Vec n) : Nat := ((List.range n).filter fun k => bit v (k + 1)).length

/-- The number x as 16-bit `DATA`: `zext_16`. -/
def zext16 (x : Nat) : Data := BitVec.ofNat 16 x

/-- The pseudocode of R45 on the bits of the request word alone. -/
def issuePseudocode (w : Word) (e : Engine) : Engine :=
  let opc := w.extractLsb' 28 4
  let respondWith (stat : Status) (data : Nat) : Engine := { e with ph := .done, rsp := { stat := stat, data := zext16 data } }
  let checked (mbz : Word) (e' : Engine) : Engine := if w &&& mbz ≠ 0 then respondWith 1#2 0 else e'
  if opc ∈ [0x0#4, 0xC#4, 0xD#4, 0xE#4, 0xF#4] then respondWith 2#2 0
  else if opc = 0x1#4 then
    checked 0x0FFFFC00#32
      (respondWith 0#2 ((deriveSubkeys tables (w.extractLsb' 0 10)).1.toNat * 256 +
        (deriveSubkeys tables (w.extractLsb' 0 10)).2.toNat))
  else if opc = 0x2#4 ∨ opc = 0x3#4 then
    checked 0x0F000000#32 { e with ph := .initialPermutation, req := w, w := w.extractLsb' 16 8 }
  else if opc = 0x4#4 then
    checked 0x0FFFFC00#32 (respondWith 0#2 (permute tables.p10 (w.extractLsb' 0 10)).toNat)
  else if opc = 0x5#4 then
    checked 0x0FFFFC00#32 (respondWith 0#2 (permute tables.p8 (w.extractLsb' 0 10)).toNat)
  else if opc = 0x6#4 then
    checked 0x0FFFFF00#32 (respondWith 0#2 (permute tables.ip (w.extractLsb' 0 8)).toNat)
  else if opc = 0x7#4 then
    checked 0x0FFFFF00#32 (respondWith 0#2 (permute tables.ipInv (w.extractLsb' 0 8)).toNat)
  else if opc = 0x8#4 then
    checked 0x0FFFFFF0#32 (respondWith 0#2 (permute tables.ep (w.extractLsb' 0 4)).toNat)
  else if opc = 0x9#4 then
    checked 0x0FFFFFF0#32 (respondWith 0#2 (permute tables.p4 (w.extractLsb' 0 4)).toNat)
  else if opc = 0xA#4 then
    checked 0x0FFFFFF0#32 (respondWith 0#2 (substitute (w.extractLsb' 0 4) tables.s0).toNat)
  else checked 0x0FFFFFF0#32 (respondWith 0#2 (substitute (w.extractLsb' 0 4) tables.s1).toNat)

/-- The request word of ENC or DEC as a number: opcode, block, K1, K2 in their places (R41). -/
def blockWord (opc : Nat) (block k1 k2 : Vec 8) : Word :=
  BitVec.ofNat 32 (opc * 2 ^ 28 + block.toNat * 2 ^ 16 + k1.toNat * 2 ^ 8 + k2.toNat)

/-- The rule ENC and DEC follow: the issue step, the whole run in six steps, and the malformed words. -/
def BlockRequest (opc : Nat) (instr : Vec 8 → Vec 8 → Vec 8 → Instr) (result : Vec 8 → Vec 8 → Vec 8 → Vec 8) : Prop :=
  (∀ b k1 k2 s, s.engine.ph = .start →
    exec (instr b k1 k2) s =
      .next { s with engine := { s.engine with ph := .initialPermutation, req := blockWord opc b k1 k2, w := b } }) ∧
  (∀ b k1 k2, decode (blockWord opc b k1 k2) = .ok (instr b k1 k2)) ∧
  (∀ b k1 k2 s, Presents s (blockWord opc b k1 k2) [] →
    stepN 6 s =
      .next { s with
        engine :=
          { ph := .done, req := blockWord opc b k1 k2, w := result b k1 k2,
            rsp := { stat := 0#2, data := zext16 (result b k1 k2).toNat } },
        moves := [] }) ∧
  (∀ s w rest, Presents s w rest → w.extractLsb' 28 4 = BitVec.ofNat 4 opc → w &&& 0x0F000000#32 ≠ 0 →
    step s = .next (answered (s.withMoves rest) 1#2 0))

/-- The phases a step without reset may lead to, as R14 and R103 list them; an idle or waiting host leaves
`Start` and `Done` as they are. -/
def follows : Phase → List Phase
  | .start => [.start, .initialPermutation, .done]
  | .initialPermutation => [.round1]
  | .round1 => [.swap]
  | .swap => [.round2]
  | .round2 => [.finalPermutation]
  | .finalPermutation => [.done]
  | .done => [.done, .start]

/-- A raw `TABLES` argument meets every line of R60 and R79. -/
def TablesMeetInvariants (r : RawTables) : Prop :=
  (r.p10.length = 10 ∧ ∀ e ∈ r.p10, 1 ≤ e ∧ e ≤ 10) ∧ (r.p8.length = 8 ∧ ∀ e ∈ r.p8, 1 ≤ e ∧ e ≤ 10) ∧
  (r.ip.length = 8 ∧ ∀ e ∈ r.ip, 1 ≤ e ∧ e ≤ 8) ∧ (r.ipInv.length = 8 ∧ ∀ e ∈ r.ipInv, 1 ≤ e ∧ e ≤ 8) ∧
  (r.ep.length = 8 ∧ ∀ e ∈ r.ep, 1 ≤ e ∧ e ≤ 4) ∧ (r.p4.length = 4 ∧ ∀ e ∈ r.p4, 1 ≤ e ∧ e ≤ 4) ∧
  (r.s0.length = 4 ∧ ∀ row ∈ r.s0, row.length = 4 ∧ ∀ x ∈ row, x ≤ 3) ∧
  (r.s1.length = 4 ∧ ∀ row ∈ r.s1, row.length = 4 ∧ ∀ x ∈ row, x ≤ 3) ∧
  ∀ i < 8, r.ip.getD (r.ipInv.getD i 0 - 1) 0 = i + 1

end Sys2Proof.Machine

/-- R25, R133: after reset the engine is ready and presents no response. -/
def Obligations.ResetStateIsReady : Prop :=
  State.reset.engine.ph = .start ∧ reqReady State.reset = true ∧ rspValid State.reset = false ∧
    rspStat State.reset = none ∧ rspData State.reset = none

/-- R24: the four outputs follow the phase (that the response outputs are absent while `rsp_valid = 0` is the
model's choice: notes/assumptions/6.md). -/
def Obligations.OutputsFollowThePhase : Prop :=
  ∀ s : State,
    (reqReady s = true ↔ s.engine.ph = .start) ∧ (rspValid s = true ↔ s.engine.ph = .done) ∧
    (rspValid s = true → rspStat s = some s.engine.rsp.stat ∧ rspData s = some s.engine.rsp.data) ∧
    (rspValid s = false → rspStat s = none ∧ rspData s = none)

/-- R131, R132: `rst` leads to `Start` from any state, and no response is presented for the request in flight.
That the host's remaining moves and its received responses stay as they are is the model's choice, since R143 leaves
the host's own bookkeeping open (notes/assumptions/20.md), and no part of R131 or R132. -/
def Obligations.RstAlwaysLeadsToStart : Prop :=
  ∀ s rest, s.moves = .rst :: rest →
    ∃ t, step s = .next t ∧ t.engine.ph = .start ∧ t.moves = rest ∧ t.received = s.received ∧
      reqReady t = true ∧ rspValid t = false

/-- R45: a request the decoder accepts is executed in the very step that issues it. -/
def Obligations.StepIssuesTheDecodedInstruction : Prop :=
  ∀ s w rest i, Presents s w rest → decode w = .ok i → step s = exec i (s.withMoves rest)

/-- R41, R44: words written out from the encoding tables decode to the instructions they stand for. -/
def Obligations.SampleWordsDecode : Prop :=
  decode 0b00010000000000000000001010000010#32 = .ok (.derive 0b1010000010#10) ∧
  decode 0b00100000100101111010010001000011#32 = .ok (.enc 0b10010111#8 0b10100100#8 0b01000011#8) ∧
  decode 0b00110000001110001010010001000011#32 = .ok (.dec 0b00111000#8 0b10100100#8 0b01000011#8) ∧
  decode 0b01010000000000000000000000111000#32 = .ok (.permP8 0b0000111000#10) ∧
  decode 0b10000000000000000000000000001101#32 = .ok (.permEp 0b1101#4) ∧
  decode 0b10110000000000000000000000001111#32 = .ok (.sboxS1 0b1111#4) ∧
  decode 0b11110001000000000000000000000000#32 = .illegal ∧
  decode 0b00010000000000000000011010000010#32 = .malformed

/-- R45: the issue step does what its pseudocode says, for every one of the 2^32 words. -/
def Obligations.IssueFollowsThePseudocode : Prop :=
  ∀ s w rest, Presents s w rest →
    step s = .next { s with engine := issuePseudocode w s.engine, moves := rest }

/-- R46: a reserved opcode is answered with (`E_ILLEGAL`, 0), nothing else changes, and after the take the
engine is ready again. -/
def Obligations.ReservedOpcodeIsReportedAndRecoverable : Prop :=
  ∀ s w rest, Presents s w (.take :: rest) → w.extractLsb' 28 4 ∈ [0x0#4, 0xC#4, 0xD#4, 0xE#4, 0xF#4] →
    step s = .next (answered (s.withMoves (.take :: rest)) 2#2 0) ∧
    step (answered (s.withMoves (.take :: rest)) 2#2 0) =
      .next { s with
        engine := { s.engine with ph := .start, rsp := { stat := 2#2, data := 0 } },
        moves := rest, received := s.received ++ [{ stat := 2#2, data := 0 }] }

/-- R73, R74: PERM.P10 and PERM.P8. The example values, and every clause that names `tables` and a
value, rest on the default `TABLES`, which the spec marks as general knowledge (notes/assumptions/7.md). -/
def Obligations.KeyPermutationRequests : Prop :=
  OneStepRequest 0x4#4 0x0FFFFC00#32 .permP10 (fun v => zext16 (permute tables.p10 v).toNat) ∧
  OneStepRequest 0x5#4 0x0FFFFC00#32 .permP8 (fun v => zext16 (permute tables.p8 v).toNat) ∧
  CopiesBits tables.p10 ∧ CopiesBits tables.p8 ∧
  (∀ v v' : Vec 10, (∀ i, 3 ≤ i → i ≤ 10 → bit v i = bit v' i) → permute tables.p8 v = permute tables.p8 v') ∧
  decode 0x40000282#32 = .ok (.permP10 0b1010000010#10) ∧ permute tables.p10 0b1010000010#10 = 0b1000001100#10 ∧
  decode 0x50000038#32 = .ok (.permP8 0b0000111000#10) ∧ permute tables.p8 0b0000111000#10 = 0b10100100#8

/-- R75, R76: PERM.IP and PERM.IPINV. The example values, and every clause that names `tables` and a
value, rest on the default `TABLES`, which the spec marks as general knowledge (notes/assumptions/7.md). -/
def Obligations.BlockPermutationRequests : Prop :=
  OneStepRequest 0x6#4 0x0FFFFF00#32 .permIp (fun v => zext16 (permute tables.ip v).toNat) ∧
  OneStepRequest 0x7#4 0x0FFFFF00#32 .permIpinv (fun v => zext16 (permute tables.ipInv v).toNat) ∧
  CopiesBits tables.ip ∧ CopiesBits tables.ipInv ∧
  (∀ v, permute tables.ipInv (permute tables.ip v) = v ∧ permute tables.ip (permute tables.ipInv v) = v) ∧
  decode 0x60000097#32 = .ok (.permIp 0b10010111#8) ∧ permute tables.ip 0b10010111#8 = 0b01011101#8 ∧
  decode 0x7000002A#32 = .ok (.permIpinv 0b00101010#8) ∧ permute tables.ipInv 0b00101010#8 = 0b00111000#8

/-- R77, R78: PERM.EP and PERM.P4. The example values, and every clause that names `tables` and a
value, rest on the default `TABLES`, which the spec marks as general knowledge (notes/assumptions/7.md). -/
def Obligations.NibblePermutationRequests : Prop :=
  OneStepRequest 0x8#4 0x0FFFFFF0#32 .permEp (fun v => zext16 (permute tables.ep v).toNat) ∧
  OneStepRequest 0x9#4 0x0FFFFFF0#32 .permP4 (fun v => zext16 (permute tables.p4 v).toNat) ∧
  CopiesBits tables.ep ∧ CopiesBits tables.p4 ∧
  (∀ p, 1 ≤ p → p ≤ 4 → ones (permute tables.ep (single 4 p)) = 2) ∧
  decode 0x8000000D#32 = .ok (.permEp 0b1101#4) ∧ permute tables.ep 0b1101#4 = 0b11101011#8 ∧
  decode 0x90000004#32 = .ok (.permP4 0b0100#4) ∧ permute tables.p4 0b0100#4 = 0b1000#4

/-- R86, R87: SBOX.S0 and SBOX.S1. The listing of all 16 nibbles (R84) and the examples rest on the default
`TABLES`, values the spec marks as general knowledge (notes/assumptions/7.md). -/
def Obligations.SboxRequests : Prop :=
  OneStepRequest 0xA#4 0x0FFFFFF0#32 .sboxS0 (fun x => zext16 (substitute x tables.s0).toNat) ∧
  OneStepRequest 0xB#4 0x0FFFFFF0#32 .sboxS1 (fun x => zext16 (substitute x tables.s1).toNat) ∧
  (List.range 16).map (fun n => (substitute (BitVec.ofNat 4 n) tables.s0).toNat) =
    [1, 3, 0, 2, 3, 1, 2, 0, 0, 3, 2, 1, 1, 3, 3, 2] ∧
  (List.range 16).map (fun n => (substitute (BitVec.ofNat 4 n) tables.s1).toNat) =
    [0, 2, 1, 0, 2, 1, 3, 3, 3, 2, 0, 1, 1, 0, 0, 3] ∧
  decode 0xA0000004#32 = .ok (.sboxS0 0b0100#4) ∧ decode 0xB000000F#32 = .ok (.sboxS1 0b1111#4)

/-- R93: DERIVE. The example values, and every clause that names `tables` and a
value, rest on the default `TABLES`, which the spec marks as general knowledge (notes/assumptions/7.md). -/
def Obligations.DeriveRequest : Prop :=
  OneStepRequest 0x1#4 0x0FFFFC00#32 .derive
    (fun k => zext16 ((deriveSubkeys tables k).1.toNat * 256 + (deriveSubkeys tables k).2.toNat)) ∧
  (∀ T, deriveSubkeys T 0 = (0, 0) ∧
    deriveSubkeys T (BitVec.allOnes 10) = (BitVec.allOnes 8, BitVec.allOnes 8)) ∧
  (∀ p, 1 ≤ p → p ≤ 10 →
    ones (deriveSubkeys tables (single 10 p)).1 ≤ 1 ∧ ones (deriveSubkeys tables (single 10 p)).2 ≤ 1) ∧
  decode 0x10000282#32 = .ok (.derive 0b1010000010#10) ∧
  deriveSubkeys tables 0b1010000010#10 = (0b10100100#8, 0b01000011#8)

/-- R113: ENC. That the run takes six steps of the model rests on its scheduling (notes/assumptions/3.md,
12.md). The example values rest on the default `TABLES`, which the spec marks as general knowledge
(notes/assumptions/7.md). -/
def Obligations.EncRequest : Prop :=
  BlockRequest 2 .enc (encryptBlock tables) ∧
  (∀ b k, encryptBlock tables b k k = decryptBlock tables b k k) ∧
  encryptBlock tables 0 0 0 = 0b11110000#8 ∧ encryptBlock tables 0xFF#8 0xFF#8 0xFF#8 = 0b00001111#8 ∧
  blockWord 2 0b10010111#8 0b10100100#8 0b01000011#8 = 0x2097A443#32 ∧
  permute tables.ip 0b10010111#8 = 0b01011101#8 ∧
  roundFunction tables 0b01011101#8 0b10100100#8 = 0b10101101#8 ∧ swapHalves 0b10101101#8 = 0b11011010#8 ∧
  roundFunction tables 0b11011010#8 0b01000011#8 = 0b00101010#8 ∧
  encryptBlock tables 0b10010111#8 0b10100100#8 0b01000011#8 = 0b00111000#8

/-- R114: DEC. That the run takes six steps of the model rests on its scheduling (notes/assumptions/3.md,
12.md). The example values rest on the default `TABLES`, which the spec marks as general knowledge
(notes/assumptions/7.md). -/
def Obligations.DecRequest : Prop :=
  BlockRequest 3 .dec (decryptBlock tables) ∧
  (∀ c k1 k2, decryptBlock tables c k2 k1 = encryptBlock tables c k1 k2) ∧
  (∀ c k1 k2, ∃ p, encryptBlock tables p k1 k2 = c) ∧
  blockWord 3 0b00111000#8 0b10100100#8 0b01000011#8 = 0x3038A443#32 ∧
  permute tables.ip 0b00111000#8 = 0b00101010#8 ∧
  roundFunction tables 0b00101010#8 0b01000011#8 = 0b11011010#8 ∧ swapHalves 0b11011010#8 = 0b10101101#8 ∧
  roundFunction tables 0b10101101#8 0b10100100#8 = 0b01011101#8 ∧
  decryptBlock tables 0b00111000#8 0b10100100#8 0b01000011#8 = 0b10010111#8

/-- R105 to R109: the five steps of the sequencer, whatever the host presents short of a reset (that the engine
steps at once is the model's scheduling: notes/assumptions/3.md, 12.md). -/
def Obligations.SequencerSteps : Prop :=
  ∀ s : State, NoResetNext s → ∃ t, step s = .next t ∧ (s.engine.ph ≠ .done → t.received = s.received) ∧
    (s.engine.ph = .initialPermutation →
      t.engine = { s.engine with ph := .round1, w := permute tables.ip s.engine.w }) ∧
    (s.engine.ph = .round1 →
      t.engine = { s.engine with
        ph := .swap,
        w := roundFunction tables s.engine.w
          (if s.engine.req.extractLsb' 28 4 = 0x2#4 then s.engine.req.extractLsb' 8 8
            else s.engine.req.extractLsb' 0 8) }) ∧
    (s.engine.ph = .swap → t.engine = { s.engine with ph := .round2, w := swapHalves s.engine.w }) ∧
    (s.engine.ph = .round2 →
      t.engine = { s.engine with
        ph := .finalPermutation,
        w := roundFunction tables s.engine.w
          (if s.engine.req.extractLsb' 28 4 = 0x2#4 then s.engine.req.extractLsb' 0 8
            else s.engine.req.extractLsb' 8 8) }) ∧
    (s.engine.ph = .finalPermutation →
      t.engine =
        { ph := .done, req := s.engine.req, w := permute tables.ipInv s.engine.w,
          rsp := { stat := 0#2, data := zext16 (permute tables.ipInv s.engine.w).toNat } })

/-- The order in which host moves and engine steps interleave (the model's own choice: notes/assumptions/3.md, and
for the moves that stay after a reset notes/assumptions/20.md): a
step makes the host's next move or leaves it for the next step; an enabled move is never kept waiting. -/
def Obligations.HostMovesAreMadeInOrder : Prop :=
  ∀ s t : State, step s = .next t →
    (t.moves = s.moves ∨ ∃ m, s.moves = m :: t.moves) ∧
    (∀ m rest, s.moves = m :: rest →
      (m = .rst ∨ m = .idle ∨ (m = .take ∧ s.engine.ph = .done) ∨ ((∃ w, m = .issue w) ∧ s.engine.ph = .start)) →
      t.moves = rest)

/-- R110: take hands the response over and frees the engine, for every response, and short of a reset (which
leaves `Done` too: RstAlwaysLeadsToStart) the engine does not leave `Done` without a take. -/
def Obligations.HeldResponseStaysUntilTaken : Prop :=
  (∀ s rest, s.engine.ph = .done → s.moves = .take :: rest →
    step s = .next { s with
      engine := { s.engine with ph := .start }, moves := rest, received := s.received ++ [s.engine.rsp] }) ∧
  ∀ s, s.engine.ph = .done → NoResetNext s → (∀ rest, s.moves ≠ .take :: rest) →
    ∃ t, step s = .next t ∧ t.engine = s.engine ∧ t.received = s.received

/-- R136: a request presented at any phase but `Start` has no step; it is presented again (that `exec` then
answers the same state, and that the request stays the host's next move, are the model's choices:
notes/assumptions/3.md, 5.md). -/
def Obligations.BusyEngineIgnoresRequests : Prop :=
  ∀ s, s.engine.ph ≠ .start →
    (∀ i, exec i s = .next s) ∧
    ∀ w rest, s.moves = .issue w :: rest →
      ∃ t, step s = .next t ∧ t.moves = s.moves ∧ t.engine.req = s.engine.req ∧ t.received = s.received ∧
        (s.engine.ph = .done → t = s)

/-- R130: while `PH = Start` and no request is presented the engine waits and loses nothing. -/
def Obligations.IdleEngineWaits : Prop :=
  ∀ s, s.engine.ph = .start → NoResetNext s → (∀ w rest, s.moves ≠ .issue w :: rest) →
    ∃ t, step s = .next t ∧ t.engine = s.engine ∧ t.received = s.received ∧ t.draws = s.draws

/-- R14, R103: the phases follow each other along the fixed chain; `InitialPermutation` is entered from `Start`
only, by the issue of a well-formed ENC or DEC. -/
def Obligations.PhasesFollowTheChain : Prop :=
  ∀ s t, step s = .next t → NoResetNext s →
    t.engine.ph ∈ follows s.engine.ph ∧
    (t.engine.ph = .initialPermutation →
      ∃ w rest, Presents s w rest ∧ (w.extractLsb' 28 4 = 0x2#4 ∨ w.extractLsb' 28 4 = 0x3#4) ∧
        w.extractLsb' 24 4 = 0#4)

/-- R15: apart from a reset, `REQ` is written when, and only when, a well-formed ENC or DEC is issued. -/
def Obligations.OnlyBlockRequestsWriteReq : Prop :=
  ∀ s t, step s = .next t → NoResetNext s →
    (t.engine.req ≠ s.engine.req →
      ∃ w rest, Presents s w rest ∧ (w.extractLsb' 28 4 = 0x2#4 ∨ w.extractLsb' 28 4 = 0x3#4) ∧
        w.extractLsb' 24 4 = 0#4 ∧ t.engine.req = w) ∧
    ∀ w rest, Presents s w rest → (w.extractLsb' 28 4 = 0x2#4 ∨ w.extractLsb' 28 4 = 0x3#4) →
      w.extractLsb' 24 4 = 0#4 → t.engine.req = w

/-- R17: apart from a reset, `RSP` is written by the step that enters `Done` and by no other; what it writes is
a defined status, with `DATA` 0 unless the status is `OK`. -/
def Obligations.OnlyEnteringDoneWritesRsp : Prop :=
  ∀ s t, step s = .next t → NoResetNext s →
    (¬ (s.engine.ph ≠ .done ∧ t.engine.ph = .done) → t.engine.rsp = s.engine.rsp) ∧
    (s.engine.ph ≠ .done → t.engine.ph = .done →
      t.engine.rsp.stat ∈ [0#2, 1#2, 2#2] ∧ (t.engine.rsp.stat ≠ 0#2 → t.engine.rsp.data = 0))

/-- R110, R137: a step hands over at most one response, the one the engine holds at `Done`, by a take.
That a reset, too, leaves the list of received responses as it is is the model's choice (notes/assumptions/20.md). -/
def Obligations.ResponsesComeFromTakesOnly : Prop :=
  ∀ s t, step s = .next t →
    t.received = s.received ∨
    ((∃ rest, s.moves = .take :: rest) ∧ s.engine.ph = .done ∧ t.received = s.received ++ [s.engine.rsp] ∧
      t.engine.ph = .start)

/-- R118, R124: no step of the machine stops, on any tables it accepts. -/
def Obligations.NoStepStops : Prop :=
  (∀ s, ∃ t, step s = .next t) ∧ ∀ T s, ∃ t, stepWith T s = .next t

/-- R26: the read-after-write discipline holds right after reset. -/
def Obligations.ResetStateIsSound : Prop := State.reset.Sound

/-- R26, R103: every step keeps the invariant. -/
def Obligations.StepsKeepSoundness : Prop := ∀ s t, s.Sound → step s = .next t → t.Sound

/-- R26, R140: what the latches hold at `Start` is never seen: two machines with the same phase `Start`, the same
moves and the same received responses look the same to the host after any number of steps (the step lemma
beneath it is StepsKeepAlikeness). -/
def Obligations.LatchesAreNeverSeen : Prop :=
  ∀ k s s', s.engine.ph = .start → s'.engine.ph = .start → s.moves = s'.moves → s.received = s'.received →
    ∃ t t', stepN k s = .next t ∧ stepN k s' = .next t' ∧ visible t = visible t' ∧ t.moves = t'.moves

/-- R26, R140: two machines that differ only in elements no rule reads stay so by every step, and look the same
to the host: no step copies a stale latch to where it can be read. -/
def Obligations.StepsKeepAlikeness : Prop :=
  ∀ s s', Alike s s' →
    visible s = visible s' ∧ ∃ t t', step s = .next t ∧ step s' = .next t' ∧ Alike t t'

/-- R22, R123: every request word has one response, whatever the machine did before. How `ask` schedules the
request is the model's choice (notes/assumptions/17.md). -/
def Obligations.ResponseIsFunctionOfTheRequest : Prop :=
  ∀ w, ∃ r, ∀ s, s.engine.ph = .start →
    ∃ t, ask w s = some (r, t) ∧ t.engine.ph = .start ∧ t.moves = [] ∧ t.received = s.received ++ [r]

/-- R111: on any accepted tables, a well-formed ENC or DEC leads to a response that is the cipher's value, whatever
the host does meanwhile short of a reset. That this takes exactly six steps of the model, with any moves pending
(idle included), is the model's scheduling (notes/assumptions/3.md, 12.md), and no rule of the spec. -/
def Obligations.SequencerComputesTheCipher : Prop :=
  ∀ (T : Tables) (s : State) (ms : List Move) (b k1 k2 : Vec 8), s.engine.ph = .start → .rst ∉ ms →
    (∃ used, ∃ left, ms = used ++ left ∧
      runFrom (stepWith T) 6 (s.withMoves (.issue (blockWord 2 b k1 k2) :: ms)) =
        .next { s with
          engine :=
            { ph := .done, req := blockWord 2 b k1 k2, w := encryptBlock T b k1 k2,
              rsp := { stat := 0#2, data := zext16 (encryptBlock T b k1 k2).toNat } },
          moves := left }) ∧
    (∃ used, ∃ left, ms = used ++ left ∧
      runFrom (stepWith T) 6 (s.withMoves (.issue (blockWord 3 b k1 k2) :: ms)) =
        .next { s with
          engine :=
            { ph := .done, req := blockWord 3 b k1 k2, w := decryptBlock T b k1 k2,
              rsp := { stat := 0#2, data := zext16 (decryptBlock T b k1 k2).toNat } },
          moves := left })

/-- R141: a well-formed ENC or DEC reaches `Done` in exactly five engine steps, every other word at once. That these
are five successive steps of the model, with any moves pending (idle included), is the model's scheduling
(notes/assumptions/3.md, 12.md), and no rule of the spec. -/
def Obligations.RequestsReachDoneOnTime : Prop :=
  ∀ (s : State) (w : Word) (ms : List Move), Presents s w ms → .rst ∉ ms →
    (if (w.extractLsb' 28 4 = 0x2#4 ∨ w.extractLsb' 28 4 = 0x3#4) ∧ w.extractLsb' 24 4 = 0#4 then
      (∀ k t, 1 ≤ k → k ≤ 5 → stepN k s = .next t → t.engine.ph ≠ .done ∧ t.engine.ph ≠ .start) ∧
      ∃ t, stepN 6 s = .next t ∧ t.engine.ph = .done
    else ∃ t, stepN 1 s = .next t ∧ t.engine.ph = .done)

/-- R112: the round trip, for every tables instance, block and pair of subkeys, and through the key schedule. -/
def Obligations.DecryptionInvertsEncryption : Prop :=
  ∀ T,
    (∀ p k1 k2, decryptBlock T (encryptBlock T p k1 k2) k1 k2 = p) ∧
    (∀ c k1 k2, encryptBlock T (decryptBlock T c k1 k2) k1 k2 = c) ∧
    (∀ p key, decryptBlock T (encryptBlock T p (deriveSubkeys T key).1 (deriveSubkeys T key).2)
      (deriveSubkeys T key).1 (deriveSubkeys T key).2 = p) ∧
    ∀ k1 k2, Function.Bijective fun p => encryptBlock T p k1 k2

/-- R112, last sentence: the round trip at the port. How `ask` schedules the two requests is the model's choice
(notes/assumptions/17.md). -/
def Obligations.PortRoundTrip : Prop :=
  ∀ s b k1 k2, s.engine.ph = .start →
    ∃ r t u, ask (blockWord 2 b k1 k2) s = some (r, t) ∧ r.stat = 0#2 ∧
      ask (blockWord 3 (r.data.extractLsb' 0 8) k1 k2) t = some ({ stat := 0#2, data := zext16 b.toNat }, u)

/-- R94: the seven steps of the round function, for every tables instance. -/
def Obligations.RoundFunctionSevenSteps : Prop :=
  ∀ (T : Tables) (l r : Vec 4) (k : Vec 8) (x1 x2 : Vec 4),
    xorBits (permute T.ep r) k = x1 ++ x2 →
    roundFunction T (l ++ r) k =
      xorBits l (permute T.p4 (substitute x1 T.s0 ++ substitute x2 T.s1)) ++ r

/-- R96: the round function undoes itself. -/
def Obligations.RoundFunctionIsSelfInverse : Prop :=
  ∀ T v k, roundFunction T (roundFunction T v k) k = v

/-- R95: a round leaves the right half alone, and what it XORs into the left half does not depend on it. -/
def Obligations.RoundTransformsTheLeftHalfOnly : Prop :=
  (∀ T v k i, 5 ≤ i → i ≤ 8 → bit (roundFunction T v k) i = bit v i) ∧
  ∀ T v v' k, rightBlock v = rightBlock v' →
    xorBits (leftBlock (roundFunction T v k)) (leftBlock v) =
      xorBits (leftBlock (roundFunction T v' k)) (leftBlock v')

/-- R99: swapHalves exchanges the halves and is its own inverse. -/
def Obligations.SwapHalvesIsSelfInverse : Prop :=
  (∀ v : Vec 8, (∀ i, 1 ≤ i → i ≤ 4 → bit (swapHalves v) i = bit v (i + 4) ∧ bit (swapHalves v) (i + 4) = bit v i)) ∧
  (∀ v, swapHalves (swapHalves v) = v) ∧ swapHalves 0b10101101#8 = 0b11011010#8

/-- R100, R101: the two directions are one structure with the subkeys in the other order. -/
def Obligations.DecryptionReversesTheSubkeys : Prop :=
  ∀ T b k1 k2,
    encryptBlock T b k1 k2 =
      permute T.ipInv (roundFunction T (swapHalves (roundFunction T (permute T.ip b) k1)) k2) ∧
    decryptBlock T b k1 k2 =
      permute T.ipInv (roundFunction T (swapHalves (roundFunction T (permute T.ip b) k2)) k1) ∧
    decryptBlock T b k1 k2 = encryptBlock T b k2 k1

/-- R89: relative to the P10 output, K1 is taken from halves rotated by 1 and K2 from halves rotated by 3. -/
def Obligations.SubkeyRotationTotals : Prop :=
  ∀ T key,
    deriveSubkeys T key =
      (permute T.p8 (rotateLeft (leftKey (permute T.p10 key)) 1 ++ rotateLeft (rightKey (permute T.p10 key)) 1),
       permute T.p8 (rotateLeft (leftKey (permute T.p10 key)) 3 ++ rotateLeft (rightKey (permute T.p10 key)) 3))

/-- R92: the closed form of the subkeys for the default tables, which the spec marks as general
knowledge (notes/assumptions/7.md). -/
def Obligations.SubkeysInClosedForm : Prop :=
  ∀ key : Vec 10,
    (List.range 8).map (fun i => bit (deriveSubkeys tables key).1 (i + 1)) =
      [bit key 1, bit key 7, bit key 9, bit key 4, bit key 8, bit key 3, bit key 10, bit key 6] ∧
    (List.range 8).map (fun i => bit (deriveSubkeys tables key).2 (i + 1)) =
      [bit key 8, bit key 3, bit key 6, bit key 5, bit key 10, bit key 2, bit key 9, bit key 1]

/-- R59, R72: a permutation copies the bits its table names, for every accepted table. -/
def Obligations.PermuteCopiesNamedBits : Prop :=
  ∀ n m (T : PermTable n m),
    (∀ v i, 1 ≤ i → i ≤ m → 1 ≤ T.entry i ∧ T.entry i ≤ n ∧ bit (permute T v) i = bit v (T.entry i)) ∧ CopiesBits T

/-- R60: IP and IPinv undo each other in both orders, on any accepted tables. -/
def Obligations.InitialPermutationsAreInverse : Prop :=
  ∀ (T : Tables) v, permute T.ipInv (permute T.ip v) = v ∧ permute T.ip (permute T.ipInv v) = v

/-- R68: cyclic rotation, for any length and any amount. -/
def Obligations.RotateLeftIsCyclic : Prop :=
  ∀ L (v : Vec L),
    (∀ n i, 1 ≤ i → i ≤ L → bit (rotateLeft v n) i = bit v ((i - 1 + n) % L + 1)) ∧
    rotateLeft v 0 = v ∧ rotateLeft v L = v ∧
    (∀ a b, rotateLeft (rotateLeft v a) b = rotateLeft v (a + b)) ∧
    (1 ≤ L → bit (rotateLeft v 1) L = bit v 1) ∧
    rotateLeft 0b10000#5 1 = 0b00001#5 ∧ rotateLeft 0b00001#5 2 = 0b00100#5 ∧ rotateLeft 0b01100#5 1 = 0b11000#5

/-- R69: element-wise exclusive-or and its laws. -/
def Obligations.XorBitsLaws : Prop :=
  ∀ n (a b : Vec n),
    (∀ i, bit (xorBits a b) i = (bit a i != bit b i)) ∧ xorBits a a = 0 ∧ xorBits (xorBits a b) b = a ∧
    xorBits a b = xorBits b a ∧
    xorBits 0b11101011#8 0b10100100#8 = 0b01001111#8 ∧ xorBits 0b1111#4 0b0101#4 = 0b1010#4

/-- R82, R83: the row is 2·x(1) + x(4), the column 2·x(2) + x(3), both 0 to 3, and the result is the entry there,
on any accepted S-box. -/
def Obligations.SubstituteReadsRowAndColumn : Prop :=
  ∀ (S : SBox) (x : Vec 4),
    ∃ row col, row = 2 * (bit x 1).toNat + (bit x 4).toNat ∧ col = 2 * (bit x 2).toNat + (bit x 3).toNat ∧
      row < 4 ∧ col < 4 ∧ ∃ entries t, S.rows[row]? = some entries ∧ entries[col]? = some t ∧ t ≤ 3 ∧
        (substitute x S).toNat = t ∧ bit (substitute x S) 1 = decide (t / 2 = 1) ∧
        bit (substitute x S) 2 = decide (t % 2 = 1)

/-- R60, R79, R118: a `TABLES` argument runs iff it meets the invariants; any other is refused by name. -/
def Obligations.BadTablesAreRefused : Prop :=
  ∀ r,
    (TablesMeetInvariants r → ∃ T, configure r = some T ∧ T.p10.entries = r.p10 ∧ T.p8.entries = r.p8 ∧
      T.ip.entries = r.ip ∧ T.ipInv.entries = r.ipInv ∧ T.ep.entries = r.ep ∧ T.p4.entries = r.p4 ∧
      T.s0.rows = r.s0 ∧ T.s1.rows = r.s1 ∧ ∀ s, configuredStep r s = stepWith T s) ∧
    (¬ TablesMeetInvariants r → ∀ s, configuredStep r s = .refused .tablesRefused)

/-- R6, R67: the default tables are accepted, and this machine is the one they configure. -/
def Obligations.DefaultTablesConfigureThisMachine : Prop :=
  configure standardTables = some tables ∧ ∀ s, configuredStep standardTables s = step s

/-- R41, R45: decoding the word of an instruction gives the instruction back, with every operand at every
value. -/
def Obligations.DecodeAfterEncode : Prop := ∀ i, decode (encode i) = .ok i

/-- R45, R47: every word the decoder accepts is the word of the instruction it reads: no bit is ignored. -/
def Obligations.EncodeAfterDecode : Prop := ∀ w i, decode w = .ok i → encode i = w

/-- R49: a DERIVE response drops into an ENC or DEC request. -/
def Obligations.DeriveResponseFitsBlockRequest : Prop :=
  ∀ block (ks : Vec 8 × Vec 8),
    requestFromDerive .enc block (subkeyData ks) = encode (.enc block ks.1 ks.2) ∧
    requestFromDerive .dec block (subkeyData ks) = encode (.dec block ks.1 ks.2) ∧
    (requestFromDerive .enc block (subkeyData ks)).toNat =
      2 * 2 ^ 28 + block.toNat * 2 ^ 16 + (subkeyData ks).toNat ∧
    (requestFromDerive .dec block (subkeyData ks)).toNat =
      3 * 2 ^ 28 + block.toNat * 2 ^ 16 + (subkeyData ks).toNat

/-- R10: position i of a vector of length n is bit n - i of its field. -/
def Obligations.PositionOneIsMostSignificant : Prop :=
  ∀ n (v : Vec n) i, 1 ≤ i → i ≤ n → bit v i = v.getLsbD (n - i)

/-- R53, R31: the assembler refuses exactly the ill-formed lines, and emits only words the engine executes; the
operands of the instruction are the vectors its literals spell, position 1 leftmost, in the order block, K1, K2;
a `.word` line is its raw word. The cut of a line into tokens is the model's choice (notes/assumptions/15.md). -/
def Obligations.AssemblerEmitsLegalWords : Prop :=
  (∀ op operands,
    ((assembleLine (.request op operands)).isSome = (AsmLine.request op operands).wf) ∧
    ∀ ws, assembleLine (.request op operands) = some ws →
      ∃ i, ws = [encode i] ∧ i.op = op ∧ operands = operandLiterals i ∧ decode (encode i) = .ok i) ∧
  (∀ i, assembleLine (.request i.op (operandLiterals i)) = some [encode i]) ∧
  (∀ n (v : Vec n), (renderBits v).length = n ∧
    ∀ i, 1 ≤ i → i ≤ n → (renderBits v)[i - 1]? = some (if bit v i then '1' else '0')) ∧
  (∀ n cs, ((parseBits n cs).isSome = literalOk n cs) ∧
    ∀ v, parseBits n cs = some v → ∀ i, 1 ≤ i → i ≤ n → (bit v i = true ↔ cs[i - 1]? = some '1')) ∧
  ∀ w, assembleLine (.word w) = some [w]

/-- R54, R55: the macros give the source's two-argument functions through the port. How their requests are
scheduled is the model's choice (notes/assumptions/17.md). -/
def Obligations.MacrosEncryptAndDecrypt : Prop :=
  ∀ key block s, s.engine.ph = .start →
    (∃ t, t.engine.ph = .start ∧
      encryptRequests key block s =
        some ({ stat := 0#2, data := zext16 (encryptBlock tables block (deriveSubkeys tables key).1
          (deriveSubkeys tables key).2).toNat }, t)) ∧
    ∃ t, t.engine.ph = .start ∧
      decryptRequests key block s =
        some ({ stat := 0#2, data := zext16 (decryptBlock tables block (deriveSubkeys tables key).1
          (deriveSubkeys tables key).2).toNat }, t)

/-- R56: the text protocol on any two literals: refused unless both are well formed; marker `E` encrypts, any
other marker decrypts. How the requests are scheduled is the model's choice (notes/assumptions/17.md). -/
def Obligations.TextProtocolFollowsTheMarker : Prop :=
  ∀ marker s, s.engine.ph = .start →
    (∀ key block : List Char, ¬ (literalOk 10 key = true ∧ literalOk 8 block = true) →
      textProtocol marker key block s = none) ∧
    ∀ (key : Vec 10) (block : Vec 8),
      textProtocol marker (renderBits key) (renderBits block) s =
        some (renderBits (if marker = ['E'] then
            encryptBlock tables block (deriveSubkeys tables key).1 (deriveSubkeys tables key).2
          else decryptBlock tables block (deriveSubkeys tables key).1 (deriveSubkeys tables key).2))

/-- R143, D31: a run is over at `Start` with no request left, and in no other state; once over it stays over, and
nothing more is received. That a take, idle or rst left over does not keep a run going, and that such a rst
leaves the host's lists as they are, are the model's choices (notes/assumptions/21.md, 20.md). -/
def Obligations.OnlyFinalStatesEndARun : Prop :=
  ∀ s, (runOver s = true ↔ s.engine.ph = .start ∧ ∀ w, Move.issue w ∉ s.moves) ∧
    ∀ t, runOver s = true → step s = .next t → runOver t = true ∧ t.received = s.received ∧
      (NoResetNext s → t.engine = s.engine)

/-- R143: a host program, a finite list of requests, runs to its end: every request is answered, in order, by the
response that belongs to its word, and the run is not over before the last response has been taken. That seven
steps for each request are enough is the model's scheduling (notes/assumptions/3.md, 12.md), and the reading of the
end of a run is its choice (notes/assumptions/21.md). -/
def Obligations.ProgramsRunToTheirEnd : Prop :=
  ∃ response : Word → Response, ∀ (ws : List Word) (s : State), s.engine.ph = .start →
    (∃ t, stepN (7 * ws.length) (s.withMoves (programMoves ws)) = .next t ∧ runOver t = true ∧ t.moves = [] ∧
      t.received = s.received ++ ws.map response) ∧
    ∀ k u, stepN k (s.withMoves (programMoves ws)) = .next u → runOver u = true →
      u.received = s.received ++ ws.map response

/-- R143: no run is infinite unless the host issues infinitely many requests: every step that changes anything uses
up part of a bound that the moves still to come and the phase determine, and a step changes nothing only at `Start`
and `Done`. That the engine's enabled step is never delayed is the model's scheduling (notes/assumptions/3.md,
12.md), and that a reset brings no move back is its choice (notes/assumptions/20.md). -/
def Obligations.EveryRunComesToRest : Prop :=
  ∀ s t, step s = .next t →
    stepsLeft t < stepsLeft s ∨ (t = s ∧ (s.engine.ph = .start ∨ s.engine.ph = .done))
end

