-- ==== Sys2Proof/Laws/BitVector.lean ====
section
/-! SUPPORT. The laws of positions: two vectors with the same bits are equal, and one lemma per operation
that says which bit stands at each position of its result. Everything else about vectors follows. -/

namespace Sys2Proof.Machine

theorem getMsbD_ofPositions (n : Nat) (f : Nat → Bool) (k : Nat) :
    (ofPositions n f).getMsbD k = (decide (k < n) && f (k + 1)) := by
  induction n with
  | zero => simp [ofPositions]
  | succ n ih =>
    simp only [ofPositions, BitVec.getMsbD_concat, ih]
    by_cases h : k < n
    · have : k < n + 1 := by omega
      simp [h, this]
    · by_cases h' : k = n
      · subst h'; simp
      · have : ¬ k < n + 1 := by omega
        simp [h, h', this]

@[simp] theorem bit_zero {n : Nat} (v : Vec n) : bit v 0 = false := rfl

theorem bit_succ {n : Nat} (v : Vec n) (k : Nat) : bit v (k + 1) = v.getMsbD k := by simp [bit]

/-- No vector has a 1 beyond its last position. -/
theorem bit_beyond {n : Nat} (v : Vec n) {i : Nat} (h : n < i) : bit v i = false := by
  obtain ⟨k, rfl⟩ : ∃ k, i = k + 1 := ⟨i - 1, by omega⟩
  rw [bit_succ, BitVec.getMsbD_eq_getLsbD]
  have : ¬ k < n := by omega
  simp [this]

/-- Two vectors with the same bit at every position are equal. -/
theorem vec_ext {n : Nat} {a b : Vec n} (h : ∀ i, 1 ≤ i → i ≤ n → bit a i = bit b i) : a = b := by
  apply BitVec.eq_of_getMsbD_eq
  intro k hk
  simpa [bit_succ] using h (k + 1) (by omega) (by omega)

theorem bit_ofPositions {n i : Nat} (f : Nat → Bool) (h1 : 1 ≤ i) (hn : i ≤ n) :
    bit (ofPositions n f) i = f i := by
  obtain ⟨k, rfl⟩ : ∃ k, i = k + 1 := ⟨i - 1, by omega⟩
  rw [bit_succ, getMsbD_ofPositions]
  have : k < n := by omega
  simp [this]

theorem bit_permute {n m i : Nat} (T : PermTable n m) (v : Vec n) (h1 : 1 ≤ i) (hm : i ≤ m) :
    bit (permute T v) i = bit v (T.entry i) := bit_ofPositions _ h1 hm

theorem bit_rotateLeft {L i : Nat} (v : Vec L) (n : Nat) (h1 : 1 ≤ i) (hL : i ≤ L) :
    bit (rotateLeft v n) i = bit v ((i - 1 + n) % L + 1) := bit_ofPositions _ h1 hL

theorem bit_slice {n i len k : Nat} (v : Vec n) (h1 : 1 ≤ k) (hk : k ≤ len) :
    bit (slice v i len) k = bit v (i - 1 + k) := bit_ofPositions _ h1 hk

theorem bit_xorBits {n : Nat} (a b : Vec n) (i : Nat) : bit (xorBits a b) i = (bit a i ^^ bit b i) := by
  cases i with
  | zero => rfl
  | succ k => simp [bit_succ, xorBits]

theorem bit_append {n m : Nat} (a : Vec n) (b : Vec m) (i : Nat) :
    bit (a ++ b) i = if i ≤ n then bit a i else bit b (i - n) := by
  cases i with
  | zero => simp
  | succ k =>
    rw [bit_succ, BitVec.getMsbD_append]
    by_cases h : n ≤ k
    · have h' : ¬ k + 1 ≤ n := by omega
      have h'' : k + 1 - n = (k - n) + 1 := by omega
      rw [if_pos h, if_neg h', h'', bit_succ]
    · have h' : k + 1 ≤ n := by omega
      rw [if_neg h, if_pos h', bit_succ]

/-- Splitting a concatenation gives its first part back. -/
theorem slice_append_left {n m : Nat} (a : Vec n) (b : Vec m) : slice (a ++ b) 1 n = a :=
  vec_ext fun i h1 hn => by rw [bit_slice _ h1 hn, bit_append]; simp [hn]

/-- Splitting a concatenation gives its second part back. -/
theorem slice_append_right {n m : Nat} (a : Vec n) (b : Vec m) : slice (a ++ b) (n + 1) m = b :=
  vec_ext fun i h1 hm => by
    rw [bit_slice _ h1 hm, bit_append]
    have : ¬ n + i ≤ n := by omega
    simp [this]

theorem leftBlock_append (a b : Vec 4) : leftBlock (a ++ b) = a := slice_append_left a b

theorem rightBlock_append (a b : Vec 4) : rightBlock (a ++ b) = b := slice_append_right a b

/-- `left(v) ‖ right(v) = v` for a block (R70). -/
theorem leftBlock_append_rightBlock (v : Vec 8) : leftBlock v ++ rightBlock v = v :=
  vec_ext (n := 8) fun i h1 hn => by
    rw [bit_append]
    split
    · rw [leftBlock, bit_slice _ h1 ‹_›]; simp
    · rw [rightBlock, bit_slice _ (by omega) (by omega)]
      congr 1
      omega

end Sys2Proof.Machine
end

