-- ==== Sys2Proof/Laws/Decode.lean ====
section
/-! SUPPORT. The decoder said once: what each of its three answers means. -/

namespace Sys2Proof

@[simp] theorem ofCode_code (op : Op) : Op.ofCode? op.code = some op := by cases op <;> rfl

/-- An opcode value that selects an instruction is that instruction's own. -/
theorem code_of_ofCode {c : BitVec 4} {op : Op} (h : Op.ofCode? c = some op) : op.code = c := by
  revert h; revert c; cases op <;> decide

/-- The instruction an opcode selects has that opcode. -/
@[simp] theorem op_instr (op : Op) (w : Word) : (op.instr w).op = op := by cases op <;> rfl

theorem decode_ok_iff (w : Word) (i : Instr) :
    decode w = .ok i ↔ Op.ofCode? (opcOf w) = some i.op ∧ w &&& i.op.mbz = 0 ∧ i.op.instr w = i := by
  unfold decode
  split
  · next h => simp [h]
  · next op h =>
    split
    · next hm =>
      constructor
      · intro hi
        obtain rfl : op.instr w = i := by simpa using hi
        simp [h, hm]
      · rintro ⟨ho, -, hi⟩
        obtain rfl : op = i.op := by simpa [h] using ho
        rw [hi]
    · next hm =>
      constructor
      · intro hi; simp at hi
      · rintro ⟨ho, hz, -⟩
        obtain rfl : op = i.op := by simpa [h] using ho
        exact absurd hz hm

theorem decode_illegal_iff (w : Word) : decode w = .illegal ↔ Op.ofCode? (opcOf w) = none := by
  unfold decode
  split
  · next h => simp [h]
  · next op h => split <;> simp [h]

theorem decode_malformed_iff (w : Word) :
    decode w = .malformed ↔ ∃ op, Op.ofCode? (opcOf w) = some op ∧ w &&& op.mbz ≠ 0 := by
  unfold decode
  split
  · next h => simp [h]
  · next op h => split <;> simp_all

end Sys2Proof
end

