-- ==== Sys2Proof/Laws/State.lean ====
section
/-! SUPPORT. One lemma per field per update of the state and of the engine, each true by rfl. -/

namespace Sys2Proof.Machine

section StateUpdates
variable (s : State) (e : Engine) (ms : List Move)

@[simp] theorem withEngine_engine : (s.withEngine e).engine = e := rfl
@[simp] theorem withEngine_moves : (s.withEngine e).moves = s.moves := rfl
@[simp] theorem withEngine_received : (s.withEngine e).received = s.received := rfl
@[simp] theorem withEngine_draws : (s.withEngine e).draws = s.draws := rfl
@[simp] theorem withEngine_self : s.withEngine s.engine = s := rfl
@[simp] theorem withMoves_engine : (s.withMoves ms).engine = s.engine := rfl
@[simp] theorem withMoves_moves : (s.withMoves ms).moves = ms := rfl
@[simp] theorem withMoves_received : (s.withMoves ms).received = s.received := rfl
@[simp] theorem withMoves_draws : (s.withMoves ms).draws = s.draws := rfl
@[simp] theorem takeResponse_ph : (takeResponse s).engine.ph = .start := rfl
@[simp] theorem takeResponse_req : (takeResponse s).engine.req = s.engine.req := rfl
@[simp] theorem takeResponse_w : (takeResponse s).engine.w = s.engine.w := rfl
@[simp] theorem takeResponse_rsp : (takeResponse s).engine.rsp = s.engine.rsp := rfl
@[simp] theorem takeResponse_moves : (takeResponse s).moves = s.moves := rfl
@[simp] theorem takeResponse_received : (takeResponse s).received = s.received ++ [s.engine.rsp] := rfl
@[simp] theorem takeResponse_draws : (takeResponse s).draws = s.draws := rfl
@[simp] theorem resetEvent_ph : (resetEvent s).engine.ph = .start := rfl
@[simp] theorem resetEvent_moves : (resetEvent s).moves = s.moves := rfl
@[simp] theorem resetEvent_received : (resetEvent s).received = s.received := rfl
@[simp] theorem resetEvent_draws : (resetEvent s).draws = s.draws + 1 := rfl

end StateUpdates

section EngineUpdates
variable (T : Tables) (e : Engine) (stat : Status) (data : Data) (req : Word)

@[simp] theorem respond_ph : (respond stat data e).ph = .done := rfl
@[simp] theorem respond_req : (respond stat data e).req = e.req := rfl
@[simp] theorem respond_w : (respond stat data e).w = e.w := rfl
@[simp] theorem respond_rsp : (respond stat data e).rsp = { stat := stat, data := data } := rfl
@[simp] theorem reportError_ph : (reportError stat e).ph = .done := rfl
@[simp] theorem reportError_req : (reportError stat e).req = e.req := rfl
@[simp] theorem reportError_w : (reportError stat e).w = e.w := rfl
@[simp] theorem reportError_rsp : (reportError stat e).rsp = { stat := stat, data := 0 } := rfl
@[simp] theorem issueBlock_ph : (issueBlock req e).ph = .initialPermutation := rfl
@[simp] theorem issueBlock_req : (issueBlock req e).req = req := rfl
@[simp] theorem issueBlock_w : (issueBlock req e).w = blockField req := rfl
@[simp] theorem issueBlock_rsp : (issueBlock req e).rsp = e.rsp := rfl
@[simp] theorem initialPermutationStep_ph : (initialPermutationStep T e).ph = .round1 := rfl
@[simp] theorem initialPermutationStep_req : (initialPermutationStep T e).req = e.req := rfl
@[simp] theorem initialPermutationStep_w : (initialPermutationStep T e).w = permute T.ip e.w := rfl
@[simp] theorem initialPermutationStep_rsp : (initialPermutationStep T e).rsp = e.rsp := rfl
@[simp] theorem round1Step_ph : (round1Step T e).ph = .swap := rfl
@[simp] theorem round1Step_req : (round1Step T e).req = e.req := rfl
@[simp] theorem round1Step_w : (round1Step T e).w = roundFunction T e.w (round1Key e.req) := rfl
@[simp] theorem round1Step_rsp : (round1Step T e).rsp = e.rsp := rfl
@[simp] theorem swapStep_ph : (swapStep e).ph = .round2 := rfl
@[simp] theorem swapStep_req : (swapStep e).req = e.req := rfl
@[simp] theorem swapStep_w : (swapStep e).w = swapHalves e.w := rfl
@[simp] theorem swapStep_rsp : (swapStep e).rsp = e.rsp := rfl
@[simp] theorem round2Step_ph : (round2Step T e).ph = .finalPermutation := rfl
@[simp] theorem round2Step_req : (round2Step T e).req = e.req := rfl
@[simp] theorem round2Step_w : (round2Step T e).w = roundFunction T e.w (round2Key e.req) := rfl
@[simp] theorem round2Step_rsp : (round2Step T e).rsp = e.rsp := rfl
@[simp] theorem finalPermutationStep_ph : (finalPermutationStep T e).ph = .done := rfl
@[simp] theorem finalPermutationStep_req : (finalPermutationStep T e).req = e.req := rfl
@[simp] theorem finalPermutationStep_w : (finalPermutationStep T e).w = permute T.ipInv e.w := rfl
@[simp] theorem finalPermutationStep_rsp :
    (finalPermutationStep T e).rsp = { stat := statOk, data := resultData (permute T.ipInv e.w) } := rfl

end EngineUpdates

end Sys2Proof.Machine
end

