-- ==== Sys2Proof/Laws/Ops.lean ====
section
/-! SUPPORT. What the shared operations and one step can do, said once. -/

namespace Sys2Proof.Machine

/-- At `PH = Start` a request has its effect. -/
theorem accept_ready (f : Engine → Engine) {s : State} (h : s.engine.ph = .start) :
    accept f s = .next (s.withEngine (f s.engine)) := by simp [accept, h]

/-- At any other phase a request changes nothing. -/
theorem accept_busy (f : Engine → Engine) {s : State} (h : s.engine.ph ≠ .start) : accept f s = .next s := by
  simp [accept, h]

/-- Every arm of `exec` is the acceptance of that instruction's effect. -/
theorem exec_eq_accept (i : Instr) (s : State) : exec i s = accept (issueEffect tables i) s := by cases i <;> rfl

/-- The step is the step of the machine configured with the default tables. -/
theorem step_eq_stepWith (s : State) : step s = stepWith tables s := by
  unfold step stepWith
  congr 1
  funext i t
  exact exec_eq_accept i t

theorem issueWord_ready (w : Word) {s : State} (h : s.engine.ph = .start) :
    issueWord exec w s = .next (s.withEngine (issueWordEffect tables w s.engine)) := by
  unfold issueWord issueWordEffect
  cases decode w with
  | ok i => exact (exec_eq_accept i s).trans (accept_ready _ h)
  | illegal => rfl
  | malformed => rfl

/-- The five things one step can do: a host move that is enabled, or the engine's turn, on which a host's
`idle` is spent and any other move stays. -/
theorem step_cases (s : State) :
    (∃ rest, s.moves = .rst :: rest ∧ step s = .next (resetEvent (s.withMoves rest))) ∨
    (∃ rest, s.moves = .take :: rest ∧ s.engine.ph = .done ∧
      step s = .next (takeResponse (s.withMoves rest))) ∨
    (∃ w rest, s.moves = .issue w :: rest ∧ s.engine.ph = .start ∧
      step s = .next ((s.withMoves rest).withEngine (issueWordEffect tables w s.engine))) ∨
    (∃ rest, s.moves = .idle :: rest ∧
      step s = .next ((s.withMoves rest).withEngine (engineStep tables s.engine))) ∨
    ((s.moves = [] ∨ (∃ rest, s.moves = .take :: rest ∧ s.engine.ph ≠ .done) ∨
        ∃ w rest, s.moves = .issue w :: rest ∧ s.engine.ph ≠ .start) ∧
      step s = .next (s.withEngine (engineStep tables s.engine))) := by
  unfold step portStep
  split
  · next h => simp [h, engineTurn]
  · next rest h => simp [h, engineTurn]
  · next rest h => simp [h]
  · next rest h => by_cases hd : s.engine.ph = .done <;> simp [h, hd, engineTurn]
  · next w rest h =>
    by_cases hs : s.engine.ph = .start
    · have := issueWord_ready w (s := s.withMoves rest) hs
      simp_all
    · simp [h, hs, engineTurn]

end Sys2Proof.Machine
end

