-- ==== Sys2Proof/Laws/PerInstr.lean ====
section
/-! SUPPORT. The fields of each instruction's request word, one lemma per constructor: the opcode field is the
instruction's own, the must-be-zero bits are zero, and every operand stands in its field (30_encoding.md R40,
R41, R44). -/

namespace Sys2Proof.Laws

/-- A field that lies inside the last part of a word is a field of that part. -/
theorem field_of_append_right {n m : Nat} (a : BitVec n) (b : BitVec m) {lo len : Nat} (h : lo + len ≤ m) :
    (a ++ b).extractLsb' lo len = b.extractLsb' lo len := by
  apply BitVec.eq_of_getLsbD_eq
  intro i hi
  have : lo + i < m := by omega
  simp [BitVec.getLsbD_extractLsb', BitVec.getLsbD_append, this]

/-- A field that lies above the last part of a word is a field of the part before it. -/
theorem field_of_append_left {n m : Nat} (a : BitVec n) (b : BitVec m) {lo len : Nat} (h : m ≤ lo) :
    (a ++ b).extractLsb' lo len = a.extractLsb' (lo - m) len := by
  apply BitVec.eq_of_getLsbD_eq
  intro i hi
  have h1 : ¬ lo + i < m := by omega
  have h2 : lo + i - m = lo - m + i := by omega
  simp [BitVec.getLsbD_extractLsb', BitVec.getLsbD_append, h1, h2]

/-- Taking all of a vector as a field gives the vector. -/
theorem whole_field {n : Nat} (a : BitVec n) : a.extractLsb' 0 n = a := by
  apply BitVec.eq_of_getLsbD_eq
  intro i hi
  simp [hi]

/-- A mask that asks for no bit of the last part and only for bits that are 0 before it finds nothing. -/
theorem masked_append {n m : Nat} (a c : BitVec n) (b : BitVec m) (h : a &&& c = 0) :
    (a ++ b) &&& (c ++ 0#m) = 0 := by
  apply BitVec.eq_of_getLsbD_eq
  intro i hi
  have := congrArg (fun x => x.getLsbD (i - m)) h
  by_cases hm : i < m
  · simp [BitVec.getLsbD_append, hm]
  · simpa [BitVec.getLsbD_append, hm] using this

/-- The last operand field of a word is the operand. -/
theorem last_field {n m : Nat} (a : BitVec n) (b : BitVec m) : (a ++ b).extractLsb' 0 m = b := by
  rw [field_of_append_right _ _ (by omega), whole_field]

namespace EncodeFields

/-- The opcode field selects the instruction, the must-be-zero bits are zero, and the operands are read back
from their fields. -/
def Statement (i : Instr) : Prop :=
  opcOf (encode i) = i.op.code ∧ encode i &&& i.op.mbz = 0 ∧ i.op.instr (encode i) = i

/-- A word of one operand: an opcode, zeros, and the operand in the low bits. -/
theorem oneOperand {n k : Nat} (c : BitVec 4) (z m : BitVec k) (v : BitVec n) (h : z &&& m = 0) :
    (c ++ z ++ v).extractLsb' (n + k) 4 = c ∧ (c ++ z ++ v) &&& (0#4 ++ m ++ 0#n) = 0 ∧
      (c ++ z ++ v).extractLsb' 0 n = v := by
  refine ⟨?_, ?_, last_field _ v⟩
  · rw [field_of_append_left _ _ (by omega), field_of_append_left _ _ (by omega)]
    have : n + k - n - k = 0 := by omega
    rw [this, whole_field]
  · apply masked_append
    apply BitVec.eq_of_getLsbD_eq
    intro i hi
    have := congrArg (fun x => x.getLsbD i) h
    by_cases hk : i < k
    · simpa [BitVec.getLsbD_append, hk] using this
    · simp [BitVec.getLsbD_append, hk]

/-- A word of ENC or DEC: an opcode, zeros, and the three operands. -/
theorem threeOperands (c : BitVec 4) (block k1 k2 : Vec 8) :
    let w : Word := c ++ 0#4 ++ block ++ k1 ++ k2
    opcOf w = c ∧ w &&& 0x0F000000#32 = 0 ∧ blockField w = block ∧ k1Field w = k1 ∧ k2Field w = k2 := by
  refine ⟨?_, ?_, ?_, ?_, last_field _ k2⟩
  · simp only [opcOf]
    rw [field_of_append_left _ _ (by omega), field_of_append_left _ _ (by omega),
      field_of_append_left _ _ (by omega), field_of_append_left _ _ (by omega)]
    exact whole_field c
  · have h : (c ++ 0#4) &&& 0x0F#8 = 0 := by revert c; decide
    exact masked_append _ (0x0F0000#24) _ (masked_append _ (0x0F00#16) _ (masked_append _ (0x0F#8) _ h))
  · simp only [blockField]
    rw [field_of_append_left _ _ (by omega), field_of_append_left _ _ (by omega)]
    exact last_field _ block
  · simp only [k1Field]
    rw [field_of_append_left _ _ (by omega)]
    exact last_field _ k1

theorem derive (key : Vec 10) : Statement (.derive key) := by
  obtain ⟨h1, h2, h3⟩ := oneOperand 1#4 0#18 (BitVec.allOnes 18) key (by simp)
  exact ⟨h1, h2, congrArg Instr.derive h3⟩

theorem enc (block k1 k2 : Vec 8) : Statement (.enc block k1 k2) := by
  obtain ⟨h1, h2, h3, h4, h5⟩ := threeOperands 2#4 block k1 k2
  exact ⟨h1, h2, by simp only [Instr.op, Op.instr, encode, h3, h4, h5]⟩

theorem dec (block k1 k2 : Vec 8) : Statement (.dec block k1 k2) := by
  obtain ⟨h1, h2, h3, h4, h5⟩ := threeOperands 3#4 block k1 k2
  exact ⟨h1, h2, by simp only [Instr.op, Op.instr, encode, h3, h4, h5]⟩

theorem permP10 (v : Vec 10) : Statement (.permP10 v) := by
  obtain ⟨h1, h2, h3⟩ := oneOperand 4#4 0#18 (BitVec.allOnes 18) v (by simp)
  exact ⟨h1, h2, congrArg Instr.permP10 h3⟩

theorem permP8 (v : Vec 10) : Statement (.permP8 v) := by
  obtain ⟨h1, h2, h3⟩ := oneOperand 5#4 0#18 (BitVec.allOnes 18) v (by simp)
  exact ⟨h1, h2, congrArg Instr.permP8 h3⟩

theorem permIp (v : Vec 8) : Statement (.permIp v) := by
  obtain ⟨h1, h2, h3⟩ := oneOperand 6#4 0#20 (BitVec.allOnes 20) v (by simp)
  exact ⟨h1, h2, congrArg Instr.permIp h3⟩

theorem permIpinv (v : Vec 8) : Statement (.permIpinv v) := by
  obtain ⟨h1, h2, h3⟩ := oneOperand 7#4 0#20 (BitVec.allOnes 20) v (by simp)
  exact ⟨h1, h2, congrArg Instr.permIpinv h3⟩

theorem permEp (v : Vec 4) : Statement (.permEp v) := by
  obtain ⟨h1, h2, h3⟩ := oneOperand 8#4 0#24 (BitVec.allOnes 24) v (by simp)
  exact ⟨h1, h2, congrArg Instr.permEp h3⟩

theorem permP4 (v : Vec 4) : Statement (.permP4 v) := by
  obtain ⟨h1, h2, h3⟩ := oneOperand 9#4 0#24 (BitVec.allOnes 24) v (by simp)
  exact ⟨h1, h2, congrArg Instr.permP4 h3⟩

theorem sboxS0 (nibble : Vec 4) : Statement (.sboxS0 nibble) := by
  obtain ⟨h1, h2, h3⟩ := oneOperand 10#4 0#24 (BitVec.allOnes 24) nibble (by simp)
  exact ⟨h1, h2, congrArg Instr.sboxS0 h3⟩

theorem sboxS1 (nibble : Vec 4) : Statement (.sboxS1 nibble) := by
  obtain ⟨h1, h2, h3⟩ := oneOperand 11#4 0#24 (BitVec.allOnes 24) nibble (by simp)
  exact ⟨h1, h2, congrArg Instr.sboxS1 h3⟩

end EncodeFields

end Sys2Proof.Laws
end

