-- ==== Sys2Proof/Laws/Runs.lean ====
section
/-! SUPPORT. The requests a list of moves holds, and the sequence of several steps. -/

namespace Sys2Proof.Machine

section Moves
variable (w : Word) (rest : List Move)

@[simp] theorem requestsLeft_nil : requestsLeft [] = [] := rfl
@[simp] theorem requestsLeft_issue : requestsLeft (.issue w :: rest) = w :: requestsLeft rest := rfl
@[simp] theorem requestsLeft_take : requestsLeft (.take :: rest) = requestsLeft rest := rfl
@[simp] theorem requestsLeft_rst : requestsLeft (.rst :: rest) = requestsLeft rest := rfl
@[simp] theorem requestsLeft_idle : requestsLeft (.idle :: rest) = requestsLeft rest := rfl
@[simp] theorem programMoves_nil : programMoves [] = [] := rfl
@[simp] theorem programMoves_cons (ws : List Word) :
    programMoves (w :: ws) = .issue w :: .take :: programMoves ws := rfl

end Moves

/-- The requests left are the words of the issues among the moves. -/
theorem mem_requestsLeft {w : Word} {ms : List Move} : w ∈ requestsLeft ms ↔ .issue w ∈ ms := by
  induction ms with
  | nil => simp
  | cons m ms ih => cases m <;> simp [ih]

/-- A program's moves issue its words, in its order. -/
@[simp] theorem requestsLeft_programMoves (ws : List Word) : requestsLeft (programMoves ws) = ws := by
  induction ws with
  | nil => rfl
  | cons w ws ih => simp [ih]

@[simp] theorem runFrom_zero (st : State → Host.Outcome State Fault Refusal) (s : State) :
    runFrom st 0 s = .next s := rfl

/-- The first step of a run whose first step answers a next state. -/
theorem runFrom_succ {st : State → Host.Outcome State Fault Refusal} {s t : State} (k : Nat) (h : st s = .next t) :
    runFrom st (k + 1) s = runFrom st k t := by simp [runFrom, h]

/-- A run of j + k steps is a run of j steps followed by one of k. -/
theorem runFrom_add {st : State → Host.Outcome State Fault Refusal} {j : Nat} {s t : State} (k : Nat)
    (h : runFrom st j s = .next t) : runFrom st (j + k) s = runFrom st k t := by
  induction j generalizing s with
  | zero => cases h; simp
  | succ j ih =>
    have e : j + 1 + k = (j + k) + 1 := by omega
    cases hs : st s with
    | next u =>
      rw [runFrom_succ _ hs] at h
      rw [e, runFrom_succ _ hs, ih h]
    | fault r => simp [runFrom, hs] at h
    | refused r => simp [runFrom, hs] at h

end Sys2Proof.Machine
end

