-- ==== Sys2Proof/Laws/Tables.lean ====
section
/-! SUPPORT. The laws of the tables: every entry of an accepted table is a position of its input (40_bitvector.md
R60, R118), and IP, IPinv undo each other. -/

namespace Sys2Proof.Machine

/-- Every lookup in a permutation table is in range (R59, R118). -/
theorem entry_inRange {n m i : Nat} (T : PermTable n m) (h1 : 1 ≤ i) (hm : i ≤ m) :
    1 ≤ T.entry i ∧ T.entry i ≤ n := by
  have hlen : i - 1 < T.entries.length := by rw [T.shape]; omega
  have he : T.entry i = T.entries[i - 1] := by
    have : i ≠ 0 := by omega
    rw [PermTable.entry, if_neg this, List.getD_eq_getElem _ _ hlen]
  rw [he]
  exact T.inRange _ (List.getElem_mem hlen)

/-- IP after IPinv, entry by entry (R60). -/
theorem ip_ipInv_entry (T : Tables) {i : Nat} (h1 : 1 ≤ i) (h8 : i ≤ 8) :
    T.ip.entry (T.ipInv.entry i) = i := by
  obtain ⟨k, rfl⟩ : ∃ k, i = k + 1 := ⟨i - 1, by omega⟩
  exact T.inverse k (by omega)

theorem sBox_row_length (S : SBox) {r : Nat} (h : r < 4) : (S.rows.getD r []).length = 4 := by
  have hr : r < S.rows.length := by rw [S.shape.1]; exact h
  rw [List.getD_eq_getElem _ _ hr]
  exact S.shape.2 _ (List.getElem_mem hr)

end Sys2Proof.Machine
end

