-- ==== Sys2Proof/Tests/Slice0.lean ====
section
/-! SUPPORT. The model's own tests. Expected values are the spec's: the examples of the instruction rules, the
vectors of 95_test_vectors.md and the encodings of 30_encoding.md. After them, for every obligation with
hypotheses, a concrete state or operand that meets them. -/

namespace Sys2Proof.Tests

open Sys2Proof.Machine

/-- The state after reset with these host moves to come. -/
def idleWith (ms : List Move) : State := State.reset.withMoves ms

/-- A state in phase p of the request of 95_test_vectors.md P1, W holding v, with these host moves to come. -/
def inPhase (p : Phase) (v : Vec 8) (ms : List Move) : State :=
  { engine := { ph := p, req := 0x2097A443#32, w := v, rsp := { stat := 0, data := 0x00A4#16 } }
    moves := ms, received := [], draws := 0 }

/-- The engine after one step. -/
def engineAfter (s : State) : Option Engine :=
  match step s with
  | .next t => some t.engine
  | .fault _ => none
  | .refused _ => none

/-- The response written by the step that issues w. -/
def answerTo (w : Word) : Option (Phase × Response) :=
  (engineAfter (idleWith [.issue w])).map fun e => (e.ph, e.rsp)

/-! ## Well-formed lines: one ill-formed term for each check (30_encoding.md R53) -/

theorem test_wf_accepts : (AsmLine.request .permEp [['1', '1', '0', '1']]).wf = true := by decide
theorem test_wf_refuses_short_literal : (AsmLine.request .permEp [['1', '1', '0']]).wf = false := by decide
theorem test_wf_refuses_other_character : (AsmLine.request .permEp [['1', '1', '0', '2']]).wf = false := by decide
theorem test_wf_refuses_missing_operand : (AsmLine.request .permEp []).wf = false := by decide
theorem test_wf_refuses_extra_operand :
    (AsmLine.request .permEp [['1', '1', '0', '1'], ['1', '1', '0', '1']]).wf = false := by decide
theorem test_wf_raw_word : (AsmLine.word 0xF1000000#32).wf = true := by decide
theorem test_assemble_sbox : assembleLine (.request .sboxS0 [['0', '1', '0', '0']]) = some [0xA0000004#32] := by
  decide
theorem test_assemble_refuses : assembleLine (.request .sboxS0 [['0', '1', '0']]) = none := by decide
theorem test_parse_position_one_leftmost : parseBits 4 ['1', '0', '0', '0'] = some 0b1000#4 := by decide
theorem test_render_position_one_leftmost : renderBits 0b1000#4 = ['1', '0', '0', '0'] := by decide

/-! ## Decoding: words written out bit by bit from R40, R41, R44 -/
theorem test_decode_derive : decode 0b00010000000000000000001010000010#32 = .ok (.derive 0b1010000010#10) := by decide
theorem test_decode_enc : decode 0b00100000100101111010010001000011#32 = .ok (.enc 0b10010111#8 0b10100100#8 0b01000011#8) := by decide
theorem test_decode_dec : decode 0b00110000001110001010010001000011#32 = .ok (.dec 0b00111000#8 0b10100100#8 0b01000011#8) := by decide
theorem test_decode_permP10 : decode 0b01000000000000000000001010000010#32 = .ok (.permP10 0b1010000010#10) := by decide
theorem test_decode_permP8 : decode 0b01010000000000000000000000111000#32 = .ok (.permP8 0b0000111000#10) := by decide
theorem test_decode_permIp : decode 0b01100000000000000000000010010111#32 = .ok (.permIp 0b10010111#8) := by decide
theorem test_decode_permIpinv : decode 0b01110000000000000000000000101010#32 = .ok (.permIpinv 0b00101010#8) := by decide
theorem test_decode_permEp : decode 0b10000000000000000000000000001101#32 = .ok (.permEp 0b1101#4) := by decide
theorem test_decode_permP4 : decode 0b10010000000000000000000000000100#32 = .ok (.permP4 0b0100#4) := by decide
theorem test_decode_sboxS0 : decode 0b10100000000000000000000000000100#32 = .ok (.sboxS0 0b0100#4) := by decide
theorem test_decode_sboxS1 : decode 0b10110000000000000000000000001111#32 = .ok (.sboxS1 0b1111#4) := by decide
theorem test_decode_illegal_zero : decode 0x00000000#32 = .illegal := by decide
theorem test_decode_illegal_before_malformed : decode 0xF1000000#32 = .illegal := by decide
theorem test_decode_malformed_eleven_bit_key : decode 0x10000682#32 = .malformed := by decide
theorem test_decode_malformed_rsv : decode 0x2197A443#32 = .malformed := by decide
theorem test_encode_enc : encode (.enc 0x97#8 0xA4#8 0x43#8) = 0x2097A443#32 := by decide
theorem test_table_word : decodeTableWord 32 0x40000282 = some (.permP10 0x282#10) := by decide
theorem test_table_word_malformed : decodeTableWord 32 0x60000197 = none := by decide

/-! ## Functions: 95_test_vectors.md parts 2.2 and 2.5 -/

theorem test_rotate_modulo_length : rotateLeft 0b10110#5 7 = 0b11010#5 := by decide
theorem test_rotate_by_three : rotateLeft 0b10000#5 3 = 0b00100#5 := by decide
theorem test_xor : xorBits 0b01101001#8 0b10100100#8 = 0b11001101#8 := by decide
theorem test_swap : swapHalves 0b10101101#8 = 0b11011010#8 := by decide
theorem test_round_function : roundFunction tables 0b11011100#8 0b10100100#8 = 0b01011100#8 := by decide
theorem test_round_function_all_ones : roundFunction tables 0xFF#8 0xFF#8 = 0b01111111#8 := by decide
theorem test_tables_refused : (configure { standardTables with ip := [1, 2, 3, 4, 5, 6, 7, 8] }).isNone = true := by
  decide
theorem test_tables_entry_out_of_range :
    (configure { standardTables with p4 := [2, 4, 3, 5] }).isNone = true := by decide
theorem test_tables_sbox_out_of_range :
    (configure { standardTables with s0 := [[1, 0, 3, 2], [3, 2, 1, 0], [0, 2, 1, 3], [3, 1, 3, 4]] }).isNone = true := by
  decide
theorem test_tables_accepted : (configure standardTables).isSome = true := by decide

/-! ## One step of each instruction: the examples of its rule -/

theorem test_step_derive : answerTo 0x10000282#32 = some (.done, ⟨0, 0xA443#16⟩) := by decide
theorem test_step_derive_single_one : answerTo 0x10000200#32 = some (.done, ⟨0, 0x8001#16⟩) := by decide
theorem test_step_permP10 : answerTo 0x40000282#32 = some (.done, ⟨0, 0x020C#16⟩) := by decide
theorem test_step_permP10_last_bit : answerTo 0x40000001#32 = some (.done, ⟨0, 0x0010#16⟩) := by decide
theorem test_step_permP8 : answerTo 0x50000038#32 = some (.done, ⟨0, 0x00A4#16⟩) := by decide
theorem test_step_permP8_unselected : answerTo 0x50000200#32 = some (.done, ⟨0, 0x0000#16⟩) := by decide
theorem test_step_permIp : answerTo 0x60000097#32 = some (.done, ⟨0, 0x005D#16⟩) := by decide
theorem test_step_permIp_first_bit : answerTo 0x60000080#32 = some (.done, ⟨0, 0x0010#16⟩) := by decide
theorem test_step_permIpinv : answerTo 0x7000002A#32 = some (.done, ⟨0, 0x0038#16⟩) := by decide
theorem test_step_permIpinv_first_bit : answerTo 0x70000080#32 = some (.done, ⟨0, 0x0040#16⟩) := by decide
theorem test_step_permEp : answerTo 0x8000000D#32 = some (.done, ⟨0, 0x00EB#16⟩) := by decide
theorem test_step_permEp_first_bit : answerTo 0x80000008#32 = some (.done, ⟨0, 0x0041#16⟩) := by decide
theorem test_step_permP4 : answerTo 0x90000004#32 = some (.done, ⟨0, 0x0008#16⟩) := by decide
theorem test_step_permP4_first_bit : answerTo 0x90000008#32 = some (.done, ⟨0, 0x0001#16⟩) := by decide
theorem test_step_sboxS0 : answerTo 0xA0000004#32 = some (.done, ⟨0, 0x0003#16⟩) := by decide
theorem test_step_sboxS0_row_three : answerTo 0xA0000009#32 = some (.done, ⟨0, 0x0003#16⟩) := by decide
theorem test_step_sboxS1 : answerTo 0xB000000F#32 = some (.done, ⟨0, 0x0003#16⟩) := by decide
theorem test_step_sboxS1_column_three : answerTo 0xB0000006#32 = some (.done, ⟨0, 0x0003#16⟩) := by decide
theorem test_step_illegal_first : answerTo 0xF1000000#32 = some (.done, ⟨2, 0x0000#16⟩) := by decide
theorem test_step_malformed : answerTo 0x60000197#32 = some (.done, ⟨1, 0x0000#16⟩) := by decide
theorem test_step_enc_issue :
    (engineAfter (idleWith [.issue 0x2097A443#32])).map (fun e => (e.ph, e.req, e.w)) =
      some (.initialPermutation, 0x2097A443#32, 0b10010111#8) := by decide
theorem test_step_dec_issue :
    (engineAfter (idleWith [.issue 0x3038A443#32])).map (fun e => (e.ph, e.req, e.w)) =
      some (.initialPermutation, 0x3038A443#32, 0b00111000#8) := by decide
theorem test_errors_leave_latches :
    (engineAfter { inPhase .start 0x5A#8 [] with moves := [.issue 0xA0000010#32] }).map (fun e => (e.req, e.w)) =
      some (0x2097A443#32, 0x5A#8) := by decide

/-! ## The sequencer: 95_test_vectors.md P1, one step from each phase -/

theorem test_initial_permutation :
    (engineAfter (inPhase .initialPermutation 0b10010111#8 [.take])).map (fun e => (e.ph, e.w)) =
      some (.round1, 0b01011101#8) := by decide
theorem test_round1 :
    (engineAfter (inPhase .round1 0b01011101#8 [.take])).map (fun e => (e.ph, e.w)) = some (.swap, 0b10101101#8) := by
  decide
theorem test_swap_step :
    (engineAfter (inPhase .swap 0b10101101#8 [.idle])).map (fun e => (e.ph, e.w)) = some (.round2, 0b11011010#8) := by
  decide
theorem test_round2 :
    (engineAfter (inPhase .round2 0b11011010#8 [])).map (fun e => (e.ph, e.w)) =
      some (.finalPermutation, 0b00101010#8) := by decide
theorem test_final_permutation :
    (engineAfter (inPhase .finalPermutation 0b00101010#8 [])).map (fun e => (e.ph, e.w, e.rsp)) =
      some (.done, 0b00111000#8, ⟨0, 0x0038#16⟩) := by decide
theorem test_round1_of_dec_uses_k2 :
    roundFunction tables 0b00101010#8 (round1Key 0x3038A443#32) = 0b11011010#8 := by decide
theorem test_take :
    (engineAfter (inPhase .done 0#8 [.take])).map (fun e => (e.ph, e.w)) = some (.start, 0#8) := by decide
theorem test_done_holds :
    (engineAfter (inPhase .done 0#8 [.issue 0x10000282#32])).map (fun e => e.ph) = some .done := by decide
theorem test_rst_in_flight : (engineAfter (inPhase .swap 0b10101101#8 [.rst])).map (fun e => e.ph) = some .start := by
  decide
theorem test_fetch_word :
    (engineAfter ((inPhase .swap 0#8 [.take]).withFetchWord 32 0x10000282)).map (fun e => (e.ph, e.rsp)) =
      some (.done, ⟨0, 0xA443#16⟩) := by decide

theorem test_fetch_word_runs_exec :
    step (State.reset.withFetchWord 32 0xB000000F) = exec (.sboxS1 0xF#4) State.reset := rfl

/-! ## The end of a run (70_reset_and_hazards.md R143), a request started while busy (R136) -/

theorem test_run_over_at_start : runOver State.reset = true := by decide
theorem test_run_not_over_at_done : runOver (inPhase .done 0 []) = false := by decide
theorem test_run_not_over_in_middle : runOver (inPhase .swap 0 []) = false := by decide
theorem test_run_not_over_with_request_left : runOver (idleWith [.idle, .issue 0x10000282#32]) = false := by decide
theorem test_reset_keeps_host_moves :
    (match step (inPhase .swap 0 [.rst, .take]) with
      | .next t => t.moves
      | .fault _ => []
      | .refused _ => []) = [.take] := by decide
theorem test_ask_while_busy : ask 0x10000282#32 (inPhase .done 0 []) = none := by decide
theorem test_ask_derive :
    (ask 0x10000282#32 (idleWith [])).map (fun p => p.1) = some ⟨0, 0xA443#16⟩ := by decide

/-! ## Witnesses: states and operands that meet the hypotheses of the obligations -/

theorem presents_derive : Presents (idleWith [.issue 0x10000282#32]) 0x10000282#32 [] := ⟨rfl, rfl⟩
theorem presents_enc : Presents (idleWith [.issue 0x2097A443#32]) 0x2097A443#32 [] := ⟨rfl, rfl⟩
theorem noReset_idle : NoResetNext (idleWith []) := by intro rest h; cases h
theorem noReset_inPhase (p : Phase) (v : Vec 8) : NoResetNext (inPhase p v []) := by intro rest h; cases h

theorem witness_RstAlwaysLeadsToStart : (inPhase .swap 0b10101101#8 [.rst]).moves = .rst :: [] := rfl

theorem witness_StepIssuesTheDecodedInstruction :
    Presents (idleWith [.issue 0x10000282#32]) 0x10000282#32 [] ∧
      decode 0x10000282#32 = .ok (.derive 0b1010000010#10) := ⟨presents_derive, by decide⟩

theorem witness_IssueFollowsThePseudocode : Presents (idleWith [.issue 0x2097A443#32]) 0x2097A443#32 [] :=
  presents_enc

theorem witness_ReservedOpcodeIsReportedAndRecoverable :
    Presents (idleWith [.issue 0xF1000000#32, .take]) 0xF1000000#32 (.take :: []) ∧
      (0xF1000000#32).extractLsb' 28 4 ∈ [0x0#4, 0xC#4, 0xD#4, 0xE#4, 0xF#4] := ⟨⟨rfl, rfl⟩, by decide⟩

theorem witness_KeyPermutationRequests :
    (idleWith []).engine.ph = .start ∧ Presents (idleWith [.issue 0x40000682#32]) 0x40000682#32 [] ∧
      ((0x40000282#32).extractLsb' 28 4 = 0x4#4 ∧ 0x40000282#32 &&& 0x0FFFFC00#32 = 0) ∧
      ((0x40000682#32).extractLsb' 28 4 = 0x4#4 ∧ 0x40000682#32 &&& 0x0FFFFC00#32 ≠ 0) ∧
      ((0x50000038#32).extractLsb' 28 4 = 0x5#4 ∧ 0x50000038#32 &&& 0x0FFFFC00#32 = 0) ∧
      ((0x50000438#32).extractLsb' 28 4 = 0x5#4 ∧ 0x50000438#32 &&& 0x0FFFFC00#32 ≠ 0) :=
  ⟨rfl, ⟨rfl, rfl⟩, by decide⟩

theorem witness_BlockPermutationRequests :
    (idleWith []).engine.ph = .start ∧ Presents (idleWith [.issue 0x60000197#32]) 0x60000197#32 [] ∧
      ((0x60000097#32).extractLsb' 28 4 = 0x6#4 ∧ 0x60000097#32 &&& 0x0FFFFF00#32 = 0) ∧
      ((0x60000197#32).extractLsb' 28 4 = 0x6#4 ∧ 0x60000197#32 &&& 0x0FFFFF00#32 ≠ 0) ∧
      ((0x7000002A#32).extractLsb' 28 4 = 0x7#4 ∧ 0x7000002A#32 &&& 0x0FFFFF00#32 = 0) ∧
      ((0x7000012A#32).extractLsb' 28 4 = 0x7#4 ∧ 0x7000012A#32 &&& 0x0FFFFF00#32 ≠ 0) :=
  ⟨rfl, ⟨rfl, rfl⟩, by decide⟩

theorem witness_NibblePermutationRequests :
    (idleWith []).engine.ph = .start ∧ Presents (idleWith [.issue 0x8000001D#32]) 0x8000001D#32 [] ∧
      ((0x8000000D#32).extractLsb' 28 4 = 0x8#4 ∧ 0x8000000D#32 &&& 0x0FFFFFF0#32 = 0) ∧
      ((0x8000001D#32).extractLsb' 28 4 = 0x8#4 ∧ 0x8000001D#32 &&& 0x0FFFFFF0#32 ≠ 0) ∧
      ((0x90000004#32).extractLsb' 28 4 = 0x9#4 ∧ 0x90000004#32 &&& 0x0FFFFFF0#32 = 0) ∧
      ((0x98000004#32).extractLsb' 28 4 = 0x9#4 ∧ 0x98000004#32 &&& 0x0FFFFFF0#32 ≠ 0) :=
  ⟨rfl, ⟨rfl, rfl⟩, by decide⟩

theorem witness_SboxRequests :
    (idleWith []).engine.ph = .start ∧ Presents (idleWith [.issue 0xA0000010#32]) 0xA0000010#32 [] ∧
      ((0xA0000004#32).extractLsb' 28 4 = 0xA#4 ∧ 0xA0000004#32 &&& 0x0FFFFFF0#32 = 0) ∧
      ((0xA0000010#32).extractLsb' 28 4 = 0xA#4 ∧ 0xA0000010#32 &&& 0x0FFFFFF0#32 ≠ 0) ∧
      ((0xB000000F#32).extractLsb' 28 4 = 0xB#4 ∧ 0xB000000F#32 &&& 0x0FFFFFF0#32 = 0) ∧
      ((0xB800000F#32).extractLsb' 28 4 = 0xB#4 ∧ 0xB800000F#32 &&& 0x0FFFFFF0#32 ≠ 0) :=
  ⟨rfl, ⟨rfl, rfl⟩, by decide⟩

theorem witness_DeriveRequest :
    (idleWith []).engine.ph = .start ∧ Presents (idleWith [.issue 0x10000682#32]) 0x10000682#32 [] ∧
      ((0x10000282#32).extractLsb' 28 4 = 0x1#4 ∧ 0x10000282#32 &&& 0x0FFFFC00#32 = 0) ∧
      ((0x10000682#32).extractLsb' 28 4 = 0x1#4 ∧ 0x10000682#32 &&& 0x0FFFFC00#32 ≠ 0) :=
  ⟨rfl, ⟨rfl, rfl⟩, by decide⟩

theorem witness_KeyPermutationRequests_unselected :
    ∀ i < 11, 3 ≤ i → bit 0b1000000001#10 i = bit 0b0100000001#10 i := by decide

theorem witness_EncRequest :
    (idleWith []).engine.ph = .start ∧
      Presents (idleWith [.issue (blockWord 2 0x97#8 0xA4#8 0x43#8)]) (blockWord 2 0x97#8 0xA4#8 0x43#8) [] ∧
      Presents (idleWith [.issue 0x2197A443#32]) 0x2197A443#32 [] ∧
      (0x2197A443#32).extractLsb' 28 4 = BitVec.ofNat 4 2 ∧ 0x2197A443#32 &&& 0x0F000000#32 ≠ 0 :=
  ⟨rfl, ⟨rfl, rfl⟩, ⟨rfl, rfl⟩, by decide⟩

theorem witness_DecRequest :
    (idleWith []).engine.ph = .start ∧
      Presents (idleWith [.issue (blockWord 3 0x38#8 0xA4#8 0x43#8)]) (blockWord 3 0x38#8 0xA4#8 0x43#8) [] ∧
      Presents (idleWith [.issue 0x3838A443#32]) 0x3838A443#32 [] ∧
      (0x3838A443#32).extractLsb' 28 4 = BitVec.ofNat 4 3 ∧ 0x3838A443#32 &&& 0x0F000000#32 ≠ 0 :=
  ⟨rfl, ⟨rfl, rfl⟩, ⟨rfl, rfl⟩, by decide⟩

theorem witness_OutputsFollowThePhase : rspValid (inPhase .done 0 []) = true ∧ rspValid (idleWith []) = false := by
  decide

theorem witness_SequencerSteps :
    (NoResetNext (inPhase .initialPermutation 0x97#8 []) ∧ NoResetNext (inPhase .round1 0x5D#8 []) ∧
      NoResetNext (inPhase .swap 0xAD#8 []) ∧ NoResetNext (inPhase .round2 0xDA#8 []) ∧
      NoResetNext (inPhase .finalPermutation 0x2A#8 [])) ∧
    (inPhase .initialPermutation 0x97#8 []).engine.ph = .initialPermutation ∧
    (inPhase .round1 0x5D#8 []).engine.ph = .round1 ∧ (inPhase .swap 0xAD#8 []).engine.ph = .swap ∧
    (inPhase .round2 0xDA#8 []).engine.ph = .round2 ∧
    (inPhase .finalPermutation 0x2A#8 []).engine.ph = .finalPermutation :=
  ⟨⟨noReset_inPhase _ _, noReset_inPhase _ _, noReset_inPhase _ _, noReset_inPhase _ _, noReset_inPhase _ _⟩,
    rfl, rfl, rfl, rfl, rfl⟩

theorem witness_HostMovesAreMadeInOrder :
    step (inPhase .done 0 [.take]) = .next (takeResponse ((inPhase .done 0 [.take]).withMoves [])) ∧
    (inPhase .done 0 [.take]).moves = .take :: [] ∧ (inPhase .done 0 [.take]).engine.ph = .done ∧
    (inPhase .swap 0 [.idle]).moves = .idle :: [] ∧ (inPhase .swap 0 [.rst]).moves = .rst :: [] ∧
    (idleWith [.issue 0#32]).moves = .issue 0#32 :: [] ∧ (idleWith [.issue 0#32]).engine.ph = .start :=
  ⟨rfl, rfl, rfl, rfl, rfl, rfl, rfl⟩

theorem witness_HeldResponseStaysUntilTaken :
    ((inPhase .done 0 [.take]).engine.ph = .done ∧ (inPhase .done 0 [.take]).moves = .take :: []) ∧
    (inPhase .done 0 []).engine.ph = .done ∧ NoResetNext (inPhase .done 0 []) ∧
    ∀ rest, (inPhase .done 0 []).moves ≠ .take :: rest :=
  ⟨⟨rfl, rfl⟩, rfl, noReset_inPhase _ _, by intro rest h; cases h⟩

theorem witness_BusyEngineIgnoresRequests :
    (inPhase .done 0 [.issue 0x10000282#32]).engine.ph ≠ .start ∧
      (inPhase .done 0 [.issue 0x10000282#32]).moves = .issue 0x10000282#32 :: [] ∧
      (inPhase .done 0 [.issue 0x10000282#32]).engine.ph = .done := by decide

theorem witness_IdleEngineWaits :
    (idleWith []).engine.ph = .start ∧ NoResetNext (idleWith []) ∧ ∀ w rest, (idleWith []).moves ≠ .issue w :: rest :=
  ⟨rfl, noReset_idle, by intro w rest h; cases h⟩

theorem noReset_issue (w : Word) : NoResetNext (idleWith [.issue w]) := by intro rest h; cases h

theorem witness_PhasesFollowTheChain :
    ∃ t, step (idleWith [.issue 0x2097A443#32]) = .next t ∧ NoResetNext (idleWith [.issue 0x2097A443#32]) ∧
      t.engine.ph = .initialPermutation := ⟨_, rfl, noReset_issue _, by decide⟩

theorem witness_OnlyBlockRequestsWriteReq :
    ∃ t, step (idleWith [.issue 0x2097A443#32]) = .next t ∧ NoResetNext (idleWith [.issue 0x2097A443#32]) ∧
      t.engine.req ≠ (idleWith [.issue 0x2097A443#32]).engine.req ∧
      Presents (idleWith [.issue 0x2097A443#32]) 0x2097A443#32 [] ∧
      (0x2097A443#32).extractLsb' 28 4 = 0x2#4 ∧ (0x2097A443#32).extractLsb' 24 4 = 0#4 :=
  ⟨_, rfl, noReset_issue _, by decide, presents_enc, by decide, by decide⟩

theorem witness_OnlyEnteringDoneWritesRsp :
    (∃ t, step (idleWith [.issue 0x10000682#32]) = .next t ∧ NoResetNext (idleWith [.issue 0x10000682#32]) ∧
      (idleWith [.issue 0x10000682#32]).engine.ph ≠ .done ∧ t.engine.ph = .done ∧ t.engine.rsp.stat ≠ 0#2) ∧
    ∃ t, step (inPhase .swap 0 []) = .next t ∧ NoResetNext (inPhase .swap 0 []) ∧
      ¬ ((inPhase .swap 0 []).engine.ph ≠ .done ∧ t.engine.ph = .done) :=
  ⟨⟨_, rfl, noReset_issue _, by decide, by decide, by decide⟩, _, rfl, noReset_inPhase _ _, by decide⟩

theorem witness_ResponsesComeFromTakesOnly :
    ∃ t, step (inPhase .done 0 [.take]) = .next t ∧ t.received ≠ (inPhase .done 0 [.take]).received :=
  ⟨_, rfl, by decide⟩

theorem witness_StepsKeepSoundness : (idleWith [.issue 0x2097A443#32]).Sound ∧
    ∃ t, step (idleWith [.issue 0x2097A443#32]) = .next t := by
  refine ⟨⟨⟨?_, ?_⟩, ?_⟩, _, rfl⟩
  · intro v h; cases h
  · intro h; cases h
  · intro r h; cases h

theorem sound_middle : (inPhase .round1 0b01011101#8 []).Sound := by
  refine ⟨⟨?_, ?_⟩, ?_⟩
  · intro v h
    obtain rfl : permute tables.ip (blockField 0x2097A443#32) = v := Option.some.inj h
    exact ⟨⟨.inl (by decide), by decide⟩, by decide⟩
  · intro h; cases h
  · intro r h; cases h

theorem witness_LatchesAreNeverSeen :
    (inPhase .start 0x5A#8 [.issue 0x2097A443#32]).engine.ph = .start ∧
      (idleWith [.issue 0x2097A443#32]).engine.ph = .start ∧
      (inPhase .start 0x5A#8 [.issue 0x2097A443#32]).moves = (idleWith [.issue 0x2097A443#32]).moves ∧
      (inPhase .start 0x5A#8 [.issue 0x2097A443#32]).received = (idleWith [.issue 0x2097A443#32]).received ∧
      inPhase .start 0x5A#8 [.issue 0x2097A443#32] ≠ idleWith [.issue 0x2097A443#32] := by decide

theorem witness_StepsKeepAlikeness :
    Alike (inPhase .start 0x5A#8 [.issue 0x2097A443#32]) (idleWith [.issue 0x2097A443#32]) ∧
      inPhase .start 0x5A#8 [.issue 0x2097A443#32] ≠ idleWith [.issue 0x2097A443#32] :=
  ⟨⟨rfl, rfl, rfl, fun h => absurd rfl h, fun h => by cases h⟩, by decide⟩

theorem witness_StepsKeepAlikeness_done :
    Alike (inPhase .done 0x5A#8 [.take]) (inPhase .done 0xA5#8 [.take]) ∧
      inPhase .done 0x5A#8 [.take] ≠ inPhase .done 0xA5#8 [.take] :=
  ⟨⟨rfl, rfl, rfl, fun _ h => absurd rfl h, fun _ => rfl⟩, by decide⟩

theorem witness_ResponseIsFunctionOfTheRequest : (inPhase .start 0x5A#8 [.idle]).engine.ph = .start := rfl

theorem witness_SequencerComputesTheCipher :
    (idleWith []).engine.ph = .start ∧ Move.rst ∉ [Move.idle, .take, .issue 0x10000282#32] := by decide

theorem witness_RequestsReachDoneOnTime :
    (Presents (idleWith [.issue 0x2097A443#32]) 0x2097A443#32 [] ∧ Move.rst ∉ ([] : List Move) ∧
      ((0x2097A443#32).extractLsb' 28 4 = 0x2#4 ∧ (0x2097A443#32).extractLsb' 24 4 = 0#4) ∧
      ∃ t, stepN 1 (idleWith [.issue 0x2097A443#32]) = .next t) ∧
    Presents (idleWith [.issue 0x10000282#32]) 0x10000282#32 [] ∧ (0x10000282#32).extractLsb' 28 4 ≠ 0x2#4 :=
  ⟨⟨presents_enc, by decide, by decide, _, rfl⟩, presents_derive, by decide⟩

theorem witness_PortRoundTrip : (idleWith []).engine.ph = .start := rfl

theorem witness_MacrosEncryptAndDecrypt : (inPhase .start 0x5A#8 []).engine.ph = .start := rfl

theorem witness_TextProtocolFollowsTheMarker :
    (idleWith []).engine.ph = .start ∧ ¬ (literalOk 10 ['1', '0'] = true ∧ literalOk 8 ['2'] = true) := by decide

theorem witness_RoundTransformsTheLeftHalfOnly :
    rightBlock 0b00001101#8 = rightBlock 0b11111101#8 ∧ (0b00001101#8 : Vec 8) ≠ 0b11111101#8 := by decide

theorem witness_RoundFunctionSevenSteps :
    xorBits (permute tables.ep 0b1101#4) 0b10100100#8 = 0b0100#4 ++ 0b1111#4 := by decide

/-- The ranges of positions at their ends: the first and the last position of a vector. -/
theorem witness_PositionOneIsMostSignificant :
    (1 ≤ 1 ∧ 1 ≤ 4 ∧ bit 0b1000#4 1 = true) ∧ 1 ≤ 4 ∧ 4 ≤ 4 ∧ bit 0b0001#4 4 = true := by decide

theorem witness_PermuteCopiesNamedBits :
    (1 ≤ 1 ∧ 1 ≤ 8 ∧ tables.ep.entry 1 = 4) ∧ 1 ≤ 8 ∧ 8 ≤ 8 ∧ tables.ep.entry 8 = 1 := by decide

theorem witness_NibblePermutationRequests_single : single 4 1 = 0b1000#4 ∧ single 4 4 = 0b0001#4 := by decide

theorem witness_DeriveRequest_single : single 10 1 = 0x200#10 ∧ single 10 10 = 0x001#10 := by decide

theorem witness_RotateLeftIsCyclic :
    (1 ≤ 1 ∧ 1 ≤ 5 ∧ bit (rotateLeft 0b01000#5 1) 1 = true) ∧ 5 ≤ 5 ∧ bit (rotateLeft 0b10000#5 1) 5 = true := by
  decide

theorem witness_SwapHalvesIsSelfInverse :
    (1 ≤ 1 ∧ bit (swapHalves 0x80#8) 5 = true) ∧ 4 ≤ 4 ∧ bit (swapHalves 0x01#8) 4 = true := by decide

theorem witness_RoundTransformsTheLeftHalfOnly_positions :
    (5 ≤ 5 ∧ bit (roundFunction tables 0x08#8 0#8) 5 = true) ∧ 8 ≤ 8 ∧ bit (roundFunction tables 0x01#8 0#8) 8 = true := by
  decide

theorem witness_BadTablesAreRefused :
    TablesMeetInvariants standardTables ∧
      ¬ TablesMeetInvariants { standardTables with ipInv := [1, 2, 3, 4, 5, 6, 7, 8] } := by
  constructor
  · unfold TablesMeetInvariants; decide
  · unfold TablesMeetInvariants; decide

theorem witness_EncodeAfterDecode : decode 0x30F00000#32 = .ok (.dec 0xF0#8 0#8 0#8) := by decide

theorem witness_AssemblerEmitsLegalWords :
    assembleLine (.request .dec [['0','0','1','1','1','0','0','0'], ['1','0','1','0','0','1','0','0'],
      ['0','1','0','0','0','0','1','1']]) = some [0x3038A443#32] := by decide

/-- The ranges of positions at their ends, and a literal that is refused. -/
theorem witness_AssemblerEmitsLegalWords_positions :
    parseBits 4 ['1', '0', '0', '1'] = some 0b1001#4 ∧ bit 0b1001#4 1 = true ∧ ['1', '0', '0', '1'][1 - 1]? = some '1' ∧
      bit 0b1001#4 4 = true ∧ ['1', '0', '0', '1'][4 - 1]? = some '1' ∧ parseBits 4 ['1', '0', '0'] = none := by decide

theorem witness_OnlyFinalStatesEndARun :
    runOver (idleWith [.idle]) = true ∧ NoResetNext (idleWith [.idle]) ∧
      ∃ t, step (idleWith [.idle]) = .next t ∧ t.moves = [] :=
  ⟨by decide, (by intro rest h; cases h), _, rfl, rfl⟩

theorem witness_ProgramsRunToTheirEnd :
    (idleWith []).engine.ph = .start ∧
      ∃ u, stepN 2 ((idleWith []).withMoves (programMoves [0x10000282#32])) = .next u ∧ runOver u = true :=
  ⟨rfl, _, rfl, by decide⟩

theorem witness_EveryRunComesToRest :
    ∃ t, step (inPhase .swap 0 [.take]) = .next t ∧ stepsLeft t = 8 ∧ stepsLeft (inPhase .swap 0 [.take]) = 9 :=
  ⟨_, rfl, by decide, by decide⟩

end Sys2Proof.Tests
end

section
/-! PROOF. The statements of 00_scope.md (O29, O47, O51), and the run of one request, on which O29 stands: what its
issue, the engine steps that are left and its take do together, and the response each word comes to. -/

namespace Sys2Proof.Machine

/-! ## The engine left to itself: `settled` -/

/-- The engine after all the steps it still has on its own, up to `Done` (R103). -/
def settled (T : Tables) (e : Engine) : Engine := (engineStep T)^[engineStepsLeft e.ph] e

theorem settled_of_done (T : Tables) {e : Engine} (h : e.ph = .done) : settled T e = e := by
  simp [settled, h, engineStepsLeft]

/-- An engine step at a middle phase is one of the steps that are left. -/
theorem engineStepsLeft_engineStep (T : Tables) {e : Engine} (hs : e.ph ≠ .start) (hd : e.ph ≠ .done) :
    engineStepsLeft e.ph = engineStepsLeft (engineStep T e).ph + 1 := by
  obtain ⟨ph, req, w, rsp⟩ := e
  cases ph <;> simp_all [engineStep, engineStepsLeft]

/-- Only a take or a reset leads to `Start`, never a step of the engine's own. -/
theorem engineStep_ph_ne_start (T : Tables) {e : Engine} (h : e.ph ≠ .start) : (engineStep T e).ph ≠ .start := by
  obtain ⟨ph, req, w, rsp⟩ := e
  cases ph <;> simp_all [engineStep]

theorem engineStep_start (T : Tables) {e : Engine} (h : e.ph = .start) : engineStep T e = e := by
  simp [engineStep, h]

theorem settled_engineStep (T : Tables) {e : Engine} (hs : e.ph ≠ .start) (hd : e.ph ≠ .done) :
    settled T (engineStep T e) = settled T e := by
  rw [settled, settled, engineStepsLeft_engineStep T hs hd, Function.iterate_succ_apply]

theorem engineStepsLeft_le (p : Phase) : engineStepsLeft p ≤ 5 := by cases p <;> decide

/-- The five engine steps of a latched request: IP, the two rounds with the swap between them, IP⁻¹ (R105 to
R109). -/
theorem settled_issueBlock_rsp (T : Tables) (req : Word) (e : Engine) :
    (settled T (issueBlock req e)).rsp =
      { stat := statOk, data := resultData (cipher T (blockField req) (round1Key req) (round2Key req)) } := rfl

/-! ## The response of a request -/

/-- The response an instruction comes to in the end, on the tables T. -/
def instrResponse (T : Tables) : Instr → Response
  | .derive key => { stat := statOk, data := subkeyData (deriveSubkeys T key) }
  | .enc block k1 k2 => { stat := statOk, data := resultData (encryptBlock T block k1 k2) }
  | .dec block k1 k2 => { stat := statOk, data := resultData (decryptBlock T block k1 k2) }
  | .permP10 v => { stat := statOk, data := resultData (permute T.p10 v) }
  | .permP8 v => { stat := statOk, data := resultData (permute T.p8 v) }
  | .permIp v => { stat := statOk, data := resultData (permute T.ip v) }
  | .permIpinv v => { stat := statOk, data := resultData (permute T.ipInv v) }
  | .permEp v => { stat := statOk, data := resultData (permute T.ep v) }
  | .permP4 v => { stat := statOk, data := resultData (permute T.p4 v) }
  | .sboxS0 nibble => { stat := statOk, data := resultData (substitute nibble T.s0) }
  | .sboxS1 nibble => { stat := statOk, data := resultData (substitute nibble T.s1) }

/-- The response a request word comes to in the end, on the tables T (R45). -/
def wordResponse (T : Tables) (w : Word) : Response :=
  match decode w with
  | .ok i => instrResponse T i
  | .illegal => { stat := statIllegal, data := 0 }
  | .malformed => { stat := statMalformed, data := 0 }

/-- The request word of ENC carries the block, with K1 for the first round and K2 for the second (R102). -/
theorem fields_encode_enc (block k1 k2 : Vec 8) :
    blockField (encode (.enc block k1 k2)) = block ∧ round1Key (encode (.enc block k1 k2)) = k1 ∧
      round2Key (encode (.enc block k1 k2)) = k2 := by
  obtain ⟨hop, -, hfields⟩ := Laws.EncodeFields.enc block k1 k2
  have henc : encrypts (encode (.enc block k1 k2)) = true := by rw [encrypts, hop]; rfl
  simpa [Instr.op, Op.instr, round1Key, round2Key, henc] using hfields

/-- The request word of DEC carries the block, with K2 for the first round and K1 for the second (R102). -/
theorem fields_encode_dec (block k1 k2 : Vec 8) :
    blockField (encode (.dec block k1 k2)) = block ∧ round1Key (encode (.dec block k1 k2)) = k2 ∧
      round2Key (encode (.dec block k1 k2)) = k1 := by
  obtain ⟨hop, -, hfields⟩ := Laws.EncodeFields.dec block k1 k2
  have henc : encrypts (encode (.dec block k1 k2)) = false := by rw [encrypts, hop]; rfl
  simpa [Instr.op, Op.instr, round1Key, round2Key, henc, and_comm] using hfields

theorem issueEffect_ph_ne_start (T : Tables) (i : Instr) (e : Engine) : (issueEffect T i e).ph ≠ .start := by
  cases i <;> simp [issueEffect, deriveIssue, permIssue, sboxIssue]

/-- Every instruction comes to its own response from any engine; only ENC and DEC take engine steps for it. -/
theorem settled_issueEffect_rsp (T : Tables) (i : Instr) (e : Engine) :
    (settled T (issueEffect T i e)).rsp = instrResponse T i := by
  cases i with
  | enc block k1 k2 =>
    obtain ⟨hb, h1, h2⟩ := fields_encode_enc block k1 k2
    rw [issueEffect, settled_issueBlock_rsp, hb, h1, h2]
    rfl
  | dec block k1 k2 =>
    obtain ⟨hb, h1, h2⟩ := fields_encode_dec block k1 k2
    rw [issueEffect, settled_issueBlock_rsp, hb, h1, h2]
    rfl
  | _ => rfl

theorem issueWordEffect_ph_ne_start (T : Tables) (w : Word) (e : Engine) : (issueWordEffect T w e).ph ≠ .start := by
  unfold issueWordEffect
  cases decode w with
  | ok i => exact issueEffect_ph_ne_start T i e
  | illegal => simp
  | malformed => simp

/-- Every word comes to its own response from any engine (R12, R22). -/
theorem settled_issueWordEffect_rsp (T : Tables) (w : Word) (e : Engine) :
    (settled T (issueWordEffect T w e)).rsp = wordResponse T w := by
  unfold issueWordEffect wordResponse
  cases decode w with
  | ok i => exact settled_issueEffect_rsp T i e
  | illegal => rfl
  | malformed => rfl

/-! ## One step, by the host's next move -/

theorem step_issue {s : State} (w : Word) {rest : List Move} (h : s.engine.ph = .start)
    (hm : s.moves = .issue w :: rest) :
    step s = .next ((s.withMoves rest).withEngine (issueWordEffect tables w s.engine)) := by
  simpa [step, portStep, hm, h] using issueWord_ready w (s := s.withMoves rest) h

theorem step_take {s : State} {rest : List Move} (h : s.engine.ph = .done) (hm : s.moves = .take :: rest) :
    step s = .next (takeResponse (s.withMoves rest)) := by
  simp [step, portStep, hm, h]

theorem step_take_waits {s : State} {rest : List Move} (h : s.engine.ph ≠ .done) (hm : s.moves = .take :: rest) :
    step s = .next (s.withEngine (engineStep tables s.engine)) := by
  simp [step, portStep, hm, h, engineTurn]

theorem step_idle_engine {s : State} (h : s.engine.ph = .start) (hm : s.moves = []) : step s = .next s := by
  simp [step, portStep, hm, engineTurn, engineStep_start tables h]

/-! ## The run of one request -/

theorem stepN_idle_engine {s : State} (k : Nat) (h : s.engine.ph = .start) (hm : s.moves = []) :
    stepN k s = .next s := by
  induction k with
  | zero => rfl
  | succ k ih => exact (runFrom_succ k (step_idle_engine h hm)).trans ih

/-- A take that is next waits for the engine steps that are left and is then made (R136, R110). -/
theorem stepN_take {s : State} {rest : List Move} (h : s.engine.ph ≠ .start) (hm : s.moves = .take :: rest) :
    stepN (engineStepsLeft s.engine.ph + 1) s =
      .next (takeResponse ((s.withMoves rest).withEngine (settled tables s.engine))) := by
  induction hn : engineStepsLeft s.engine.ph generalizing s with
  | zero =>
    have hd : s.engine.ph = .done := by revert h hn; cases s.engine.ph <;> simp [engineStepsLeft]
    rw [settled_of_done _ hd]
    exact runFrom_succ 0 (step_take hd hm)
  | succ n ih =>
    have hd : s.engine.ph ≠ .done := by intro hd; simp [hd, engineStepsLeft] at hn
    have hleft : engineStepsLeft (engineStep tables s.engine).ph = n := by
      have := engineStepsLeft_engineStep tables h hd
      omega
    have hrest := ih (s := s.withEngine (engineStep tables s.engine)) (engineStep_ph_ne_start tables h) hm hleft
    rw [withEngine_engine, settled_engineStep _ h hd] at hrest
    exact (runFrom_succ (n + 1) (step_take_waits hd hm)).trans hrest

/-- The state after a request has been issued at s and its response taken, no other move being placed. -/
def afterRequest (w : Word) (s : State) : State :=
  takeResponse ((s.withMoves []).withEngine (settled tables (issueWordEffect tables w s.engine)))

@[simp] theorem afterRequest_ph (w : Word) (s : State) : (afterRequest w s).engine.ph = .start := rfl

@[simp] theorem afterRequest_moves (w : Word) (s : State) : (afterRequest w s).moves = [] := rfl

@[simp] theorem afterRequest_received (w : Word) (s : State) :
    (afterRequest w s).received = s.received ++ [wordResponse tables w] := by
  simp [afterRequest, settled_issueWordEffect_rsp]

/-- Seven steps are enough for a request and its take: the issue, at most five engine steps, the take (R103). -/
theorem stepN_request (w : Word) {s : State} (h : s.engine.ph = .start) :
    stepN 7 (s.withMoves [.issue w, .take]) = .next (afterRequest w s) := by
  let e := issueWordEffect tables w s.engine
  have hissue : step (s.withMoves [.issue w, .take]) = .next ((s.withMoves [.take]).withEngine e) :=
    step_issue w h rfl
  have htake : stepN (engineStepsLeft e.ph + 1) ((s.withMoves [.take]).withEngine e) = .next (afterRequest w s) :=
    stepN_take (s := (s.withMoves [.take]).withEngine e) (issueWordEffect_ph_ne_start tables w s.engine) rfl
  have hsteps : 6 = engineStepsLeft e.ph + 1 + (5 - engineStepsLeft e.ph) := by
    have := engineStepsLeft_le e.ph
    omega
  calc stepN 7 (s.withMoves [.issue w, .take])
      = stepN 6 ((s.withMoves [.take]).withEngine e) := runFrom_succ 6 hissue
    _ = stepN (5 - engineStepsLeft e.ph) (afterRequest w s) := by rw [hsteps]; exact runFrom_add _ htake
    _ = .next (afterRequest w s) := stepN_idle_engine _ rfl rfl

/-- A request issued at `Start` and taken gives its response, whatever the engine's latches hold. -/
theorem ask_eq (w : Word) {s : State} (h : s.engine.ph = .start) :
    ask w s = some (wordResponse tables w, afterRequest w s) := by
  simp [ask, h, stepN_request w h]

end Sys2Proof.Machine

namespace Sys2Proof.Proofs

open Sys2Proof.Machine

/-- Settles O29: the response is `wordResponse` of the word, by the run of one request. -/
theorem responseIsFunctionOfTheRequest : Obligations.ResponseIsFunctionOfTheRequest := by
  intro w
  refine ⟨wordResponse tables w, fun s h => ⟨afterRequest w s, ask_eq w h, ?_⟩⟩
  exact ⟨afterRequest_ph w s, afterRequest_moves w s, afterRequest_received w s⟩

/-- The check of R60 and R79 accepts the default tables. -/
theorem configure_standardTables : configure standardTables = some tables := rfl

/-- Settles O47: the check accepts the default tables, and `step` is the step on accepted tables. -/
theorem defaultTablesConfigureThisMachine : Obligations.DefaultTablesConfigureThisMachine := by
  refine ⟨configure_standardTables, fun s => ?_⟩
  rw [configuredStep, configure_standardTables, step_eq_stepWith]

/-- Settles O51: position i is the bit i - 1 places below the most significant one. -/
theorem positionOneIsMostSignificant : Obligations.PositionOneIsMostSignificant := by
  intro n v i h1 hn
  obtain ⟨k, rfl⟩ : ∃ k, i = k + 1 := ⟨i - 1, by omega⟩
  have hk : k < n := by omega
  have hidx : n - 1 - k = n - (k + 1) := by omega
  simp [bit_succ, BitVec.getMsbD_eq_getLsbD, hk, hidx]

end Sys2Proof.Proofs
end

section
/-! PROOF. The statements of 10_state.md (O1, O2, O16, O20 to O22, O25 to O28). What they need of a step is said
first: which requests are latched and what every other one does, what the engine's own step keeps, and one step by
the host's next move. The invariant and the relation of two machines then go through one lemma per operation. -/

namespace Sys2Proof.Machine

/-! ## Which words are latched: the well-formed ENC and DEC requests -/

/-- A request word is its five fields one after the other (R40, R41). -/
theorem word_eq_fields (w : Word) : w = opcOf w ++ rsvOf w ++ blockField w ++ k1Field w ++ k2Field w := by
  simp only [opcOf, rsvOf, blockField, k1Field, k2Field,
    BitVec.extractLsb'_append_extractLsb'_eq_extractLsb' (show 28 = 24 + 4 from rfl),
    BitVec.extractLsb'_append_extractLsb'_eq_extractLsb' (show 24 = 16 + 8 from rfl),
    BitVec.extractLsb'_append_extractLsb'_eq_extractLsb' (show 16 = 8 + 8 from rfl),
    BitVec.extractLsb'_append_extractLsb'_eq_extractLsb' (show 8 = 0 + 8 from rfl)]
  exact (Laws.whole_field w).symm

/-- The mask of ENC and DEC covers `RSV` (R41). -/
theorem rsvOf_eq_zero_of_masked {w : Word} (h : w &&& 0x0F000000#32 = 0) : rsvOf w = 0 := by
  calc rsvOf w = rsvOf w &&& BitVec.allOnes 4 := BitVec.and_allOnes.symm
    _ = rsvOf (w &&& 0x0F000000#32) := (BitVec.extractLsb'_and (x := w) (y := 0x0F000000#32)).symm
    _ = 0 := by rw [h]; rfl

theorem decode_encode_of_fields {i : Instr} (h : Laws.EncodeFields.Statement i) : decode (encode i) = .ok i := by
  obtain ⟨hop, hmask, hinstr⟩ := h
  exact (decode_ok_iff _ _).mpr ⟨by rw [hop, ofCode_code], hmask, hinstr⟩

/-- A word decoded to ENC or DEC is one the issue step may latch. -/
theorem latchedRequest_of_decode {w : Word} {i : Instr} (h : decode w = .ok i) (hop : i.op = .enc ∨ i.op = .dec) :
    latchedRequest w := by
  obtain ⟨hcode, hmask, -⟩ := (decode_ok_iff w i).mp h
  have hopc := code_of_ofCode hcode
  obtain hi | hi := hop
  · rw [hi] at hopc hmask
    exact ⟨.inl hopc.symm, rsvOf_eq_zero_of_masked hmask⟩
  · rw [hi] at hopc hmask
    exact ⟨.inr hopc.symm, rsvOf_eq_zero_of_masked hmask⟩

/-- A latched word is the request word of an ENC or of a DEC: its fields spell the operands. -/
theorem eq_encode_of_latchedRequest {w : Word} (h : latchedRequest w) :
    ∃ block k1 k2, w = encode (.enc block k1 k2) ∨ w = encode (.dec block k1 k2) := by
  have hw := word_eq_fields w
  obtain ⟨hopc | hopc, hrsv⟩ := h
  · rw [hopc, hrsv] at hw
    exact ⟨_, _, _, .inl hw⟩
  · rw [hopc, hrsv] at hw
    exact ⟨_, _, _, .inr hw⟩

/-! ## What the issue of a word does to the engine -/

/-- A well-formed ENC or DEC is latched as it stands (R104). -/
theorem issueWordEffect_of_latchedRequest (T : Tables) {w : Word} (e : Engine) (h : latchedRequest w) :
    issueWordEffect T w e = issueBlock w e := by
  obtain ⟨block, k1, k2, rfl | rfl⟩ := eq_encode_of_latchedRequest h
  · rw [issueWordEffect, decode_encode_of_fields (Laws.EncodeFields.enc block k1 k2)]
    rfl
  · rw [issueWordEffect, decode_encode_of_fields (Laws.EncodeFields.dec block k1 k2)]
    rfl

/-- Every other word is answered at once, by the response it comes to in the end (R45). -/
theorem issueWordEffect_of_not_latchedRequest (T : Tables) {w : Word} (e : Engine) (h : ¬ latchedRequest w) :
    issueWordEffect T w e = respond (wordResponse T w).stat (wordResponse T w).data e := by
  unfold issueWordEffect wordResponse
  cases hd : decode w with
  | ok i =>
    cases i with
    | enc block k1 k2 => exact absurd (latchedRequest_of_decode hd (.inl rfl)) h
    | dec block k1 k2 => exact absurd (latchedRequest_of_decode hd (.inr rfl)) h
    | _ => rfl
  | illegal => rfl
  | malformed => rfl

/-! ## Legal responses -/

theorem responseOk_ok (data : Data) : responseOk { stat := statOk, data := data } :=
  ⟨by simp [statOk], fun h => absurd rfl h⟩

theorem responseOk_error {stat : Status} (h : stat ≠ 3) : responseOk { stat := stat, data := 0 } := ⟨h, fun _ => rfl⟩

/-- A legal response has one of the three defined statuses, and an error carries no data (R17, R43). -/
theorem responseOk_iff (r : Response) :
    responseOk r ↔ r.stat ∈ [0#2, 1#2, 2#2] ∧ (r.stat ≠ 0#2 → r.data = 0) := by
  have hstat : ∀ x : Status, x ≠ 3 ↔ x ∈ [0#2, 1#2, 2#2] := by decide
  exact and_congr (hstat r.stat) Iff.rfl

theorem responseOk_wordResponse (T : Tables) (w : Word) : responseOk (wordResponse T w) := by
  unfold wordResponse
  cases decode w with
  | ok i => cases i <;> exact responseOk_ok _
  | illegal => exact responseOk_error (by decide)
  | malformed => exact responseOk_error (by decide)

/-! ## What the engine's own step does -/

section EngineStep
variable (T : Tables) (e : Engine)

theorem engineStep_req : (engineStep T e).req = e.req := by
  unfold engineStep
  split <;> rfl

theorem engineStep_ph_mem_follows : (engineStep T e).ph ∈ follows e.ph := by
  obtain ⟨ph, req, w, rsp⟩ := e
  cases ph <;> simp [engineStep, follows]

/-- No engine step leads to the phase that the issue of ENC and DEC enters (R104). -/
theorem engineStep_ph_ne_initialPermutation : (engineStep T e).ph ≠ .initialPermutation := by
  obtain ⟨ph, req, w, rsp⟩ := e
  cases ph <;> simp [engineStep]

variable {e}

theorem engineStep_rsp_of_not_entering (h : ¬ (e.ph ≠ .done ∧ (engineStep T e).ph = .done)) :
    (engineStep T e).rsp = e.rsp := by
  obtain ⟨ph, req, w, rsp⟩ := e
  cases ph with
  | finalPermutation => exact absurd ⟨by simp, rfl⟩ h
  | _ => rfl

/-- The engine enters `Done` by itself from `FinalPermutation` only, with an `OK` response (R109). -/
theorem engineStep_responseOk_of_entering (hs : e.ph ≠ .done) (hd : (engineStep T e).ph = .done) :
    responseOk (engineStep T e).rsp := by
  obtain ⟨ph, req, w, rsp⟩ := e
  cases ph with
  | finalPermutation => exact responseOk_ok _
  | done => exact absurd rfl hs
  | _ => cases hd

end EngineStep

/-! ## One step, by the host's next move -/

theorem step_rst {s : State} {rest : List Move} (hm : s.moves = .rst :: rest) :
    step s = .next (resetEvent (s.withMoves rest)) := by
  simp [step, portStep, hm]

theorem step_idle {s : State} {rest : List Move} (hm : s.moves = .idle :: rest) :
    step s = .next ((s.withMoves rest).withEngine (engineStep tables s.engine)) := by
  simp [step, portStep, hm, engineTurn]

/-- No host move is enabled: none is left, or the next one is a take or an issue out of its phase (R136). -/
def HostWaits (s : State) : Prop :=
  s.moves = [] ∨ (∃ rest, s.moves = .take :: rest ∧ s.engine.ph ≠ .done) ∨
    ∃ w rest, s.moves = .issue w :: rest ∧ s.engine.ph ≠ .start

theorem step_waits {s : State} (h : HostWaits s) : step s = .next (s.withEngine (engineStep tables s.engine)) := by
  obtain hm | ⟨rest, hm, hd⟩ | ⟨w, rest, hm, hs⟩ := h
  · simp [step, portStep, hm, engineTurn]
  · exact step_take_waits hd hm
  · simp [step, portStep, hm, hs, engineTurn]

theorem not_hostWaits_of_enabled {s : State} {m : Move} {rest : List Move} (hm : s.moves = m :: rest)
    (h : m = .rst ∨ m = .idle ∨ (m = .take ∧ s.engine.ph = .done) ∨ ((∃ w, m = .issue w) ∧ s.engine.ph = .start)) :
    ¬ HostWaits s := by
  obtain rfl | rfl | ⟨rfl, hd⟩ | ⟨⟨w, rfl⟩, hs⟩ := h
  · simp [HostWaits, hm]
  · simp [HostWaits, hm]
  · simp [HostWaits, hm, hd]
  · simp [HostWaits, hm, hs]

/-- `step_cases` of a step whose next state is given. -/
theorem cases_of_step {s t : State} (h : step s = .next t) :
    (∃ rest, s.moves = .rst :: rest ∧ t = resetEvent (s.withMoves rest)) ∨
    (∃ rest, s.moves = .take :: rest ∧ s.engine.ph = .done ∧ t = takeResponse (s.withMoves rest)) ∨
    (∃ w rest, s.moves = .issue w :: rest ∧ s.engine.ph = .start ∧
      t = (s.withMoves rest).withEngine (issueWordEffect tables w s.engine)) ∨
    (∃ rest, s.moves = .idle :: rest ∧ t = (s.withMoves rest).withEngine (engineStep tables s.engine)) ∨
    (HostWaits s ∧ t = s.withEngine (engineStep tables s.engine)) := by
  simpa only [h, Host.Outcome.next.injEq, HostWaits] using step_cases s

/-- What a step without reset does to the engine: it latches a well-formed ENC or DEC, answers another request,
lets the response go, or takes the engine's own step. -/
theorem engine_cases_of_step {s t : State} (h : step s = .next t) (hr : NoResetNext s) :
    (∃ w rest, Presents s w rest ∧ latchedRequest w ∧ t.engine = issueBlock w s.engine) ∨
    (s.engine.ph = .start ∧ ∃ r, responseOk r ∧ t.engine = respond r.stat r.data s.engine) ∨
    (s.engine.ph = .done ∧ t.engine = (takeResponse s).engine) ∨
    t.engine = engineStep tables s.engine := by
  obtain ⟨rest, hm, -⟩ | ⟨rest, -, hd, rfl⟩ | ⟨w, rest, hm, hs, rfl⟩ | ⟨rest, -, rfl⟩ | ⟨-, rfl⟩ := cases_of_step h
  · exact absurd hm (hr rest)
  · exact .inr (.inr (.inl ⟨hd, rfl⟩))
  · by_cases hw : latchedRequest w
    · exact .inl ⟨w, rest, ⟨hs, hm⟩, hw, issueWordEffect_of_latchedRequest tables _ hw⟩
    · exact .inr (.inl ⟨hs, wordResponse tables w, responseOk_wordResponse tables w,
        issueWordEffect_of_not_latchedRequest tables _ hw⟩)
  · exact .inr (.inr (.inr rfl))
  · exact .inr (.inr (.inr rfl))

/-! ## The invariant of a run, operation by operation -/

theorem sound_of_start {e : Engine} (h : e.ph = .start) : e.Sound := by
  simp [Engine.Sound, h, workingBlock]

theorem sound_respond {r : Response} (e : Engine) (h : responseOk r) : (respond r.stat r.data e).Sound := by
  simpa [Engine.Sound, workingBlock] using h

theorem sound_issueBlock {w : Word} (e : Engine) (h : latchedRequest w) : (issueBlock w e).Sound := by
  simpa [Engine.Sound, workingBlock] using h

theorem sound_issueWordEffect (w : Word) (e : Engine) : (issueWordEffect tables w e).Sound := by
  by_cases hw : latchedRequest w
  · rw [issueWordEffect_of_latchedRequest tables e hw]
    exact sound_issueBlock e hw
  · rw [issueWordEffect_of_not_latchedRequest tables e hw]
    exact sound_respond e (responseOk_wordResponse tables w)

/-- The engine's step keeps `REQ` and applies to `W` just what `workingBlock` says for the next phase. -/
theorem sound_engineStep {e : Engine} (h : e.Sound) : (engineStep tables e).Sound := by
  obtain ⟨hmiddle, hdone⟩ := h
  obtain ⟨ph, req, w, rsp⟩ := e
  cases ph with
  | start => exact sound_of_start rfl
  | done => exact ⟨hmiddle, hdone⟩
  | finalPermutation => exact sound_respond (r := ⟨statOk, _⟩) _ (responseOk_ok _)
  | _ =>
    obtain ⟨hreq, hw⟩ := hmiddle _ rfl
    dsimp only at hw
    subst hw
    exact ⟨fun v hv => ⟨hreq, Option.some.inj hv⟩, fun hd => by cases hd⟩

/-! ## Two machines that differ only in what no rule reads -/

/-- The engine part of `Alike`. -/
structure AlikeEngines (e e' : Engine) : Prop where
  ph : e.ph = e'.ph
  latches : e.ph ≠ .start → e.ph ≠ .done → e.req = e'.req ∧ e.w = e'.w
  response : e.ph = .done → e.rsp = e'.rsp

theorem alike_iff (s s' : State) :
    Alike s s' ↔ AlikeEngines s.engine s'.engine ∧ s.moves = s'.moves ∧ s.received = s'.received :=
  ⟨fun ⟨hp, hm, hr, hl, hd⟩ => ⟨⟨hp, hl, hd⟩, hm, hr⟩, fun ⟨⟨hp, hl, hd⟩, hm, hr⟩ => ⟨hp, hm, hr, hl, hd⟩⟩

theorem alikeEngines_of_start {e e' : Engine} (h : e.ph = .start) (h' : e'.ph = .start) : AlikeEngines e e' :=
  ⟨h.trans h'.symm, fun hs => absurd h hs, fun hd => by simp [h] at hd⟩

/-- Every issue writes all that its phase reads, from its word alone. -/
theorem alikeEngines_issueWordEffect (w : Word) (e e' : Engine) :
    AlikeEngines (issueWordEffect tables w e) (issueWordEffect tables w e') := by
  by_cases hw : latchedRequest w
  · rw [issueWordEffect_of_latchedRequest tables e hw, issueWordEffect_of_latchedRequest tables e' hw]
    exact ⟨rfl, fun _ _ => ⟨rfl, rfl⟩, fun hd => by cases hd⟩
  · rw [issueWordEffect_of_not_latchedRequest tables e hw, issueWordEffect_of_not_latchedRequest tables e' hw]
    exact ⟨rfl, fun _ hd => absurd rfl hd, fun _ => rfl⟩

/-- At a middle phase the engine's step reads `REQ` and `W` only, on which the two machines agree. -/
theorem alikeEngines_engineStep {e e' : Engine} (h : AlikeEngines e e') :
    AlikeEngines (engineStep tables e) (engineStep tables e') := by
  obtain ⟨ph, req, w, rsp⟩ := e
  obtain ⟨ph', req', w', rsp'⟩ := e'
  obtain rfl : ph = ph' := h.ph
  cases ph with
  | start => exact h
  | done => exact h
  | finalPermutation =>
    obtain ⟨rfl, rfl⟩ : req = req' ∧ w = w' := h.latches (by simp) (by simp)
    exact ⟨rfl, fun _ _ => ⟨rfl, rfl⟩, fun _ => rfl⟩
  | _ =>
    obtain ⟨rfl, rfl⟩ : req = req' ∧ w = w' := h.latches (by simp) (by simp)
    exact ⟨rfl, fun _ _ => ⟨rfl, rfl⟩, fun hd => by cases hd⟩

theorem visible_eq_of_alike {s s' : State} (h : Alike s s') : visible s = visible s' := by
  obtain ⟨hph, -, hreceived, -, hresponse⟩ := h
  by_cases hd : s.engine.ph = .done
  · simp [visible, reqReady, rspValid, rspStat, rspData, ← hph, hd, hreceived, hresponse hd]
  · simp [visible, reqReady, rspValid, rspStat, rspData, ← hph, hd, hreceived]

theorem hostWaits_of_alike {s s' : State} (h : Alike s s') (hs : HostWaits s) : HostWaits s' := by
  unfold HostWaits at hs ⊢
  rwa [h.moves, h.ph] at hs

/-- Two machines that are alike make the same step. -/
theorem alike_step {s s' : State} (h : Alike s s') :
    ∃ t t', step s = .next t ∧ step s' = .next t' ∧ Alike t t' := by
  obtain ⟨he, hmoves, hreceived⟩ := (alike_iff s s').mp h
  have hturn := alikeEngines_engineStep he
  obtain ⟨rest, hm, ht⟩ | ⟨rest, hm, hd, ht⟩ | ⟨w, rest, hm, hs, ht⟩ | ⟨rest, hm, ht⟩ | ⟨hwait, ht⟩ := step_cases s
  · exact ⟨_, _, ht, step_rst (hmoves ▸ hm), (alike_iff _ _).mpr ⟨alikeEngines_of_start rfl rfl, rfl, hreceived⟩⟩
  · have hlists : s.received ++ [s.engine.rsp] = s'.received ++ [s'.engine.rsp] := by
      rw [hreceived, he.response hd]
    exact ⟨_, _, ht, step_take (he.ph ▸ hd) (hmoves ▸ hm),
      (alike_iff _ _).mpr ⟨alikeEngines_of_start rfl rfl, rfl, hlists⟩⟩
  · exact ⟨_, _, ht, step_issue w (he.ph ▸ hs) (hmoves ▸ hm),
      (alike_iff _ _).mpr ⟨alikeEngines_issueWordEffect w _ _, rfl, hreceived⟩⟩
  · exact ⟨_, _, ht, step_idle (hmoves ▸ hm), (alike_iff _ _).mpr ⟨hturn, rfl, hreceived⟩⟩
  · exact ⟨_, _, ht, step_waits (hostWaits_of_alike h hwait), (alike_iff _ _).mpr ⟨hturn, hmoves, hreceived⟩⟩

/-- Alike machines stay alike for any number of steps. -/
theorem alike_stepN (k : Nat) {s s' : State} (h : Alike s s') :
    ∃ t t', stepN k s = .next t ∧ stepN k s' = .next t' ∧ Alike t t' := by
  induction k generalizing s s' with
  | zero => exact ⟨s, s', rfl, rfl, h⟩
  | succ k ih =>
    obtain ⟨u, u', hu, hu', halike⟩ := alike_step h
    obtain ⟨t, t', ht, ht', h'⟩ := ih halike
    exact ⟨t, t', (runFrom_succ k hu).trans ht, (runFrom_succ k hu').trans ht', h'⟩

end Sys2Proof.Machine

namespace Sys2Proof.Proofs

open Sys2Proof.Machine

/-- Settles O26: each of the five things a step can do leads from a sound state to a sound one. -/
theorem stepsKeepSoundness : Obligations.StepsKeepSoundness := by
  rintro s t ⟨he, hreceived⟩ h
  obtain ⟨rest, -, rfl⟩ | ⟨rest, -, hd, rfl⟩ | ⟨w, rest, -, -, rfl⟩ | ⟨rest, -, rfl⟩ | ⟨-, rfl⟩ := cases_of_step h
  · exact ⟨sound_of_start rfl, hreceived⟩
  · refine ⟨sound_of_start rfl, fun r hr => ?_⟩
    obtain hr | rfl : r ∈ s.received ∨ r = s.engine.rsp := by simpa using hr
    · exact hreceived r hr
    · obtain ⟨-, hdone⟩ := he
      exact hdone hd
  · exact ⟨sound_issueWordEffect w s.engine, hreceived⟩
  · exact ⟨sound_engineStep he, hreceived⟩
  · exact ⟨sound_engineStep he, hreceived⟩

/-- Settles O28: what the host sees is a function of what alike machines share, and they make the same step. -/
theorem stepsKeepAlikeness : Obligations.StepsKeepAlikeness :=
  fun _ _ h => ⟨visible_eq_of_alike h, alike_step h⟩

/-- Settles O16: an enabled move is spent, any other one stays. -/
theorem hostMovesAreMadeInOrder : Obligations.HostMovesAreMadeInOrder := by
  intro s t h
  have hspent : (∃ m, s.moves = m :: t.moves) ∨ (HostWaits s ∧ t.moves = s.moves) := by
    obtain ⟨rest, hm, rfl⟩ | ⟨rest, hm, -, rfl⟩ | ⟨w, rest, hm, -, rfl⟩ | ⟨rest, hm, rfl⟩ | ⟨hwait, rfl⟩ :=
      cases_of_step h
    · exact .inl ⟨_, hm⟩
    · exact .inl ⟨_, hm⟩
    · exact .inl ⟨_, hm⟩
    · exact .inl ⟨_, hm⟩
    · exact .inr ⟨hwait, rfl⟩
  obtain ⟨m, hm⟩ | ⟨hwait, hkept⟩ := hspent
  · exact ⟨.inr ⟨m, hm⟩, fun m' rest hm' _ => (List.cons.inj (hm.symm.trans hm')).2⟩
  · exact ⟨.inl hkept, fun m rest hm henabled => absurd hwait (not_hostWaits_of_enabled hm henabled)⟩

/-- Settles O20, by the four things a step without reset does to the engine. -/
theorem phasesFollowTheChain : Obligations.PhasesFollowTheChain := by
  intro s t h hr
  obtain ⟨w, rest, ⟨hs, hm⟩, ⟨hopc, hrsv⟩, ht⟩ | ⟨hs, r, -, ht⟩ | ⟨hd, ht⟩ | ht := engine_cases_of_step h hr
  · exact ⟨by simp [ht, hs, follows], fun _ => ⟨w, rest, ⟨hs, hm⟩, hopc, hrsv⟩⟩
  · exact ⟨by simp [ht, hs, follows], fun hph => by simp [ht] at hph⟩
  · exact ⟨by simp [ht, hd, follows], fun hph => by simp [ht] at hph⟩
  · rw [ht]
    exact ⟨engineStep_ph_mem_follows tables s.engine,
      fun hph => absurd hph (engineStep_ph_ne_initialPermutation tables s.engine)⟩

/-- Settles O21: of all operations only `issueBlock` writes `REQ`. -/
theorem onlyBlockRequestsWriteReq : Obligations.OnlyBlockRequestsWriteReq := by
  intro s t h hr
  constructor
  · intro hreq
    obtain ⟨w, rest, hp, ⟨hopc, hrsv⟩, ht⟩ | ⟨-, r, -, ht⟩ | ⟨-, ht⟩ | ht := engine_cases_of_step h hr
    · exact ⟨w, rest, hp, hopc, hrsv, by rw [ht, issueBlock_req]⟩
    · exact absurd (by rw [ht, respond_req]) hreq
    · exact absurd (by rw [ht, takeResponse_req]) hreq
    · exact absurd (by rw [ht, engineStep_req]) hreq
  · rintro w rest ⟨hs, hm⟩ hopc hrsv
    obtain rfl := Host.Outcome.next.inj (h.symm.trans (step_issue w hs hm))
    simp [issueWordEffect_of_latchedRequest tables s.engine ⟨hopc, hrsv⟩]

/-- Settles O22: `RSP` is written by a response alone, which enters `Done` in the same step. -/
theorem onlyEnteringDoneWritesRsp : Obligations.OnlyEnteringDoneWritesRsp := by
  intro s t h hr
  simp only [← responseOk_iff]
  obtain ⟨w, rest, -, -, ht⟩ | ⟨hs, r, hok, ht⟩ | ⟨-, ht⟩ | ht := engine_cases_of_step h hr
  · simp [ht]
  · simp [ht, hs, hok]
  · simp [ht]
  · rw [ht]
    exact ⟨engineStep_rsp_of_not_entering tables, engineStep_responseOk_of_entering tables⟩

/-- Settles O27: at `Start` any two machines with the same moves and received responses are alike. -/
theorem latchesAreNeverSeen : Obligations.LatchesAreNeverSeen := by
  intro k s s' hs hs' hmoves hreceived
  obtain ⟨t, t', ht, ht', halike⟩ :=
    alike_stepN k ((alike_iff s s').mpr ⟨alikeEngines_of_start hs hs', hmoves, hreceived⟩)
  exact ⟨t, t', ht, ht', visible_eq_of_alike halike, halike.moves⟩

/-- Settles O2: the outputs are read off `PH` and `RSP`. -/
theorem outputsFollowThePhase : Obligations.OutputsFollowThePhase := by
  intro s
  refine ⟨by simp [reqReady], by simp [rspValid], fun hv => ?_, fun hv => ?_⟩
  · simp [rspStat, rspData, hv]
  · simp [rspStat, rspData, hv]

/-- Settles O1: the outputs at `Start`. -/
theorem resetStateIsReady : Obligations.ResetStateIsReady := by
  obtain ⟨hready, -, -, habsent⟩ := outputsFollowThePhase State.reset
  exact ⟨rfl, hready.mpr rfl, rfl, habsent rfl⟩

/-- Settles O25: `Start` is sound whatever the latches hold, and nothing has been received. -/
theorem resetStateIsSound : Obligations.ResetStateIsSound :=
  ⟨sound_of_start rfl, fun _ hr => absurd hr List.not_mem_nil⟩

end Sys2Proof.Proofs
end

section
/-! PROOF. The statements of 30_encoding.md (O4 to O7, O48 to O50, O52 to O54): the encoder and the decoder undo each
other, the issue step is the pseudocode of R45 opcode by opcode, a literal and its vector determine each other, and
ENCRYPT and DECRYPT are two requests with one response each. -/

namespace Sys2Proof

/-! ## The two round trips of the request word -/

/-- Every instruction's word has its opcode, zeros where R41 asks for them, and its operands in their fields. -/
theorem encodeFields (i : Instr) : Laws.EncodeFields.Statement i :=
  match i with
  | .derive key => Laws.EncodeFields.derive key
  | .enc block k1 k2 => Laws.EncodeFields.enc block k1 k2
  | .dec block k1 k2 => Laws.EncodeFields.dec block k1 k2
  | .permP10 v => Laws.EncodeFields.permP10 v
  | .permP8 v => Laws.EncodeFields.permP8 v
  | .permIp v => Laws.EncodeFields.permIp v
  | .permIpinv v => Laws.EncodeFields.permIpinv v
  | .permEp v => Laws.EncodeFields.permEp v
  | .permP4 v => Laws.EncodeFields.permP4 v
  | .sboxS0 nibble => Laws.EncodeFields.sboxS0 nibble
  | .sboxS1 nibble => Laws.EncodeFields.sboxS1 nibble

@[simp] theorem decode_encode (i : Instr) : decode (encode i) = .ok i :=
  Machine.decode_encode_of_fields (encodeFields i)

/-- A word whose bits between the opcode and the last operand are 0 is its opcode, zeros and that operand. -/
theorem word_of_masked {k n : Nat} {w : BitVec (4 + k + n)} {c : BitVec 4} (hopc : w.extractLsb' (n + k) 4 = c)
    (hmask : w &&& (0#4 ++ BitVec.allOnes k ++ 0#n) = 0) : c ++ 0#k ++ w.extractLsb' 0 n = w := by
  have hmiddle : w.extractLsb' n k = 0#k := by
    have hfield : (0#4 ++ BitVec.allOnes k ++ 0#n).extractLsb' n k = BitVec.allOnes k := by
      rw [Laws.field_of_append_left _ _ (le_refl n), Nat.sub_self, Laws.last_field]
    calc w.extractLsb' n k = w.extractLsb' n k &&& BitVec.allOnes k := BitVec.and_allOnes.symm
      _ = (w &&& (0#4 ++ BitVec.allOnes k ++ 0#n)).extractLsb' n k := by rw [BitVec.extractLsb'_and, hfield]
      _ = 0#k := by rw [hmask]; simp
  rw [← hopc, ← hmiddle, BitVec.extractLsb'_append_extractLsb'_eq_extractLsb' rfl,
    BitVec.extractLsb'_append_extractLsb'_eq_extractLsb' (Nat.zero_add n).symm, Laws.whole_field]

/-- A word with this opcode and zeros under its mask is the word of the instruction read from its fields. -/
theorem encode_instr {op : Op} {w : Word} (hopc : opcOf w = op.code) (hmask : w &&& op.mbz = 0) :
    encode (op.instr w) = w := by
  cases op with
  | enc =>
    have hw := Machine.word_eq_fields w
    rw [hopc, Machine.rsvOf_eq_zero_of_masked hmask] at hw
    exact hw.symm
  | dec =>
    have hw := Machine.word_eq_fields w
    rw [hopc, Machine.rsvOf_eq_zero_of_masked hmask] at hw
    exact hw.symm
  | derive => exact word_of_masked (k := 18) (n := 10) hopc hmask
  | permP10 => exact word_of_masked (k := 18) (n := 10) hopc hmask
  | permP8 => exact word_of_masked (k := 18) (n := 10) hopc hmask
  | permIp => exact word_of_masked (k := 20) (n := 8) hopc hmask
  | permIpinv => exact word_of_masked (k := 20) (n := 8) hopc hmask
  | permEp => exact word_of_masked (k := 24) (n := 4) hopc hmask
  | permP4 => exact word_of_masked (k := 24) (n := 4) hopc hmask
  | sboxS0 => exact word_of_masked (k := 24) (n := 4) hopc hmask
  | sboxS1 => exact word_of_masked (k := 24) (n := 4) hopc hmask

theorem encode_of_decode {w : Word} {i : Instr} (h : decode w = .ok i) : encode i = w := by
  obtain ⟨hcode, hmask, hinstr⟩ := (decode_ok_iff w i).mp h
  rw [← hinstr]
  exact encode_instr (code_of_ofCode hcode).symm hmask

/-- The reserved opcodes of R46 are those that select no instruction. -/
theorem ofCode_eq_none_iff (c : BitVec 4) : Op.ofCode? c = none ↔ c ∈ [0x0#4, 0xC#4, 0xD#4, 0xE#4, 0xF#4] := by
  revert c
  decide

end Sys2Proof

namespace Sys2Proof.Machine

/-! ## Numbers and fields -/

theorem toNat_append_eq_add {n m : Nat} (a : BitVec n) (b : BitVec m) :
    (a ++ b).toNat = a.toNat * 2 ^ m + b.toNat := by
  rw [BitVec.toNat_append, ← Nat.shiftLeft_add_eq_or_of_lt b.isLt, Nat.shiftLeft_eq]

theorem zext16_toNat {n : Nat} (v : Vec n) : zext16 v.toNat = resultData v := BitVec.ofNat_toNat 16 v

theorem zext16_subkeys (ks : Vec 8 × Vec 8) : zext16 (ks.1.toNat * 256 + ks.2.toNat) = subkeyData ks := by
  have hk : (subkeyData ks).toNat = ks.1.toNat * 256 + ks.2.toNat := toNat_append_eq_add ks.1 ks.2
  rw [zext16, ← hk, BitVec.ofNat_toNat, BitVec.setWidth_eq]

/-- A DERIVE response stands in the word where K1 and K2 stand in it (R49). -/
theorem requestFromDerive_subkeyData (op : Op) (block : Vec 8) (ks : Vec 8 × Vec 8) :
    requestFromDerive op block (subkeyData ks) = op.code ++ 0#4 ++ block ++ ks.1 ++ ks.2 := by
  rw [requestFromDerive, subkeyData, BitVec.append_assoc']
  rfl

/-- `(OPC << 28) | (block << 16) | DATA` as a sum of numbers (R49). -/
theorem toNat_requestFromDerive (op : Op) (block : Vec 8) (data : Data) :
    (requestFromDerive op block data).toNat = op.code.toNat * 2 ^ 28 + block.toNat * 2 ^ 16 + data.toNat := by
  simp only [requestFromDerive, toNat_append_eq_add, BitVec.toNat_ofNat]
  omega

/-! ## The pseudocode of R45, arm by arm -/

section Pseudocode
variable {w : Word} (e : Engine)

theorem issuePseudocode_of_reserved (h : Op.ofCode? (opcOf w) = none) :
    issuePseudocode w e = reportError statIllegal e := if_pos ((ofCode_eq_none_iff _).mp h)

theorem issuePseudocode_of_malformed {op : Op} (hopc : opcOf w = op.code) (hmask : w &&& op.mbz ≠ 0) :
    issuePseudocode w e = reportError statMalformed e := by
  unfold opcOf at hopc
  simp only [issuePseudocode, hopc]
  cases op <;> exact if_pos hmask

theorem issuePseudocode_of_wellFormed {op : Op} (hopc : opcOf w = op.code) (hmask : w &&& op.mbz = 0) :
    issuePseudocode w e = issueEffect tables (op.instr w) e := by
  have hword := encode_instr hopc hmask
  have hpass : ¬ (w &&& op.mbz ≠ 0) := not_not_intro hmask
  unfold opcOf at hopc
  simp only [issuePseudocode, hopc, zext16_toNat, zext16_subkeys]
  cases op with
  | enc => exact (if_neg hpass).trans (congrArg (issueBlock · e) hword.symm)
  | dec => exact (if_neg hpass).trans (congrArg (issueBlock · e) hword.symm)
  | _ => exact if_neg hpass

end Pseudocode

/-- What issuing a word does to the engine is R45's pseudocode on its bits. -/
theorem issueWordEffect_eq_issuePseudocode (w : Word) (e : Engine) :
    issueWordEffect tables w e = issuePseudocode w e := by
  unfold issueWordEffect
  cases hd : decode w with
  | ok i =>
    obtain ⟨hcode, hmask, hinstr⟩ := (decode_ok_iff w i).mp hd
    rw [issuePseudocode_of_wellFormed e (code_of_ofCode hcode).symm hmask, hinstr]
  | illegal => exact (issuePseudocode_of_reserved e ((decode_illegal_iff w).mp hd)).symm
  | malformed =>
    obtain ⟨op, hcode, hmask⟩ := (decode_malformed_iff w).mp hd
    exact (issuePseudocode_of_malformed e (code_of_ofCode hcode).symm hmask).symm

/-! ## Literals: a literal of n characters and its vector determine each other -/

theorem literalOk_iff (n : Nat) (cs : List Char) :
    literalOk n cs = true ↔ cs.length = n ∧ ∀ c ∈ cs, c = '0' ∨ c = '1' := by
  simp [literalOk, isBinaryChar]

@[simp] theorem renderBits_length {n : Nat} (v : Vec n) : (renderBits v).length = n := by simp [renderBits]

theorem renderBits_getElem? {n i : Nat} (v : Vec n) (h1 : 1 ≤ i) (hn : i ≤ n) :
    (renderBits v)[i - 1]? = some (if bit v i then '1' else '0') := by
  obtain ⟨k, rfl⟩ : ∃ k, i = k + 1 := ⟨i - 1, by omega⟩
  have hk : k < n := by omega
  simp [renderBits, hk]

@[simp] theorem literalOk_renderBits {n : Nat} (v : Vec n) : literalOk n (renderBits v) = true := by
  refine (literalOk_iff n _).mpr ⟨renderBits_length v, fun c hc => ?_⟩
  obtain ⟨k, -, rfl⟩ := List.mem_map.mp hc
  cases bit v (k + 1) <;> simp

theorem parseBits_isSome (n : Nat) (cs : List Char) : (parseBits n cs).isSome = literalOk n cs := by
  unfold parseBits
  cases literalOk n cs <;> rfl

/-- The literal a vector is written as stands for that vector. -/
@[simp] theorem parseBits_renderBits {n : Nat} (v : Vec n) : parseBits n (renderBits v) = some v := by
  rw [parseBits, if_pos (literalOk_renderBits v)]
  refine congrArg some (vec_ext fun i h1 hn => ?_)
  rw [bit_ofPositions _ h1 hn, List.getD_eq_getElem?_getD, renderBits_getElem? v h1 hn]
  cases bit v i <;> rfl

/-- A literal that is parsed is the one its vector is written as. -/
theorem eq_renderBits_of_parseBits {n : Nat} {cs : List Char} {v : Vec n} (h : parseBits n cs = some v) :
    cs = renderBits v := by
  obtain ⟨hok, hv⟩ : literalOk n cs = true ∧ ofPositions n (fun i => cs.getD (i - 1) '0' == '1') = v := by
    simpa [parseBits] using h
  obtain ⟨hlen, hchars⟩ := (literalOk_iff n cs).mp hok
  refine List.ext_getElem (by simp [hlen]) fun k hk _ => ?_
  have hbit : bit v (k + 1) = (cs[k] == '1') := by
    rw [← hv, bit_ofPositions _ (by omega) (by omega), Nat.add_sub_cancel, List.getD_eq_getElem _ _ hk]
  obtain hc | hc := hchars cs[k] (List.getElem_mem hk)
  · simp [renderBits, hbit, hc]
  · simp [renderBits, hbit, hc]

/-! ## Request lines: a line and its instruction determine each other -/

theorem parseOneOperand_isSome (n : Nat) (operands : List (List Char)) :
    (parseOneOperand n operands).isSome = literalsOk [n] operands := by
  match operands with
  | [] => rfl
  | [v] => simp [parseOneOperand, literalsOk, parseBits_isSome]
  | _ :: _ :: _ => simp [parseOneOperand, literalsOk]

theorem parseBlockOperands_isSome (operands : List (List Char)) :
    (parseBlockOperands operands).isSome = literalsOk [8, 8, 8] operands := by
  match operands with
  | [] | [_] | [_, _] | _ :: _ :: _ :: _ :: _ => simp [parseBlockOperands, literalsOk]
  | [b, x, y] =>
    simp only [parseBlockOperands, literalsOk, ← parseBits_isSome]
    cases parseBits 8 b with
    | none => rfl
    | some b =>
      cases parseBits 8 x with
      | none => rfl
      | some x => cases parseBits 8 y <;> rfl

theorem eq_of_parseOneOperand {n : Nat} {operands : List (List Char)} {v : Vec n}
    (h : parseOneOperand n operands = some v) : operands = [renderBits v] := by
  unfold parseOneOperand at h
  split at h
  · rw [eq_renderBits_of_parseBits h]
  · cases h

theorem eq_of_parseBlockOperands {operands : List (List Char)} {p : Vec 8 × Vec 8 × Vec 8}
    (h : parseBlockOperands operands = some p) :
    operands = [renderBits p.1, renderBits p.2.1, renderBits p.2.2] := by
  unfold parseBlockOperands at h
  split at h
  · split at h
    · next hb hx hy =>
      cases h
      rw [eq_renderBits_of_parseBits hb, eq_renderBits_of_parseBits hx, eq_renderBits_of_parseBits hy]
    · cases h
  · cases h

/-- The assembler refuses a request line exactly when it is ill-formed (R53). -/
theorem parseRequest_isSome (op : Op) (operands : List (List Char)) :
    (parseRequest op operands).isSome = literalsOk op.operandWidths operands := by
  cases op with
  | enc => exact Option.isSome_map.trans (parseBlockOperands_isSome operands)
  | dec => exact Option.isSome_map.trans (parseBlockOperands_isSome operands)
  | _ => exact Option.isSome_map.trans (parseOneOperand_isSome _ operands)

@[simp] theorem parseRequest_operandLiterals (i : Instr) : parseRequest i.op (operandLiterals i) = some i := by
  cases i <;> simp [parseRequest, Instr.op, operandLiterals, parseOneOperand, parseBlockOperands]

/-- A line that is accepted is the line of the instruction it names, written out. -/
theorem line_of_parseRequest {op : Op} {operands : List (List Char)} {i : Instr}
    (h : parseRequest op operands = some i) : i.op = op ∧ operands = operandLiterals i := by
  cases op with
  | enc =>
    obtain ⟨p, hp, rfl⟩ := Option.map_eq_some_iff.mp h
    exact ⟨rfl, eq_of_parseBlockOperands hp⟩
  | dec =>
    obtain ⟨p, hp, rfl⟩ := Option.map_eq_some_iff.mp h
    exact ⟨rfl, eq_of_parseBlockOperands hp⟩
  | _ =>
    obtain ⟨v, hv, rfl⟩ := Option.map_eq_some_iff.mp h
    exact ⟨rfl, eq_of_parseOneOperand hv⟩

/-! ## ENCRYPT and DECRYPT: two requests, one response each -/

/-- The request word of an instruction comes to that instruction's response. -/
theorem wordResponse_encode (T : Tables) (i : Instr) : wordResponse T (encode i) = instrResponse T i := by
  rw [wordResponse, decode_encode]

/-- ENCRYPT or DECRYPT started at `Start` gives the response of its block request under the derived subkeys (R54, R55). -/
theorem blockMacro_eq (op : Op) (key : Vec 10) (block : Vec 8) {s : State} (h : s.engine.ph = .start) :
    ∃ t, t.engine.ph = .start ∧ blockMacro op key block s =
      some (wordResponse tables (requestFromDerive op block (subkeyData (deriveSubkeys tables key))), t) := by
  have hderive : wordResponse tables (encode (.derive key)) =
      { stat := statOk, data := subkeyData (deriveSubkeys tables key) } := wordResponse_encode tables _
  have hsecond := ask_eq (requestFromDerive op block (subkeyData (deriveSubkeys tables key)))
    (afterRequest_ph (encode (.derive key)) s)
  rw [blockMacro, ask_eq _ h, hderive]
  exact ⟨_, afterRequest_ph _ _, (if_pos rfl).trans hsecond⟩

/-- The text protocol's output field holds the 8 bits of the result (R56). -/
theorem lowField_resultData (v : Vec 8) : lowField 8 ((resultData v).setWidth 32) = v := by
  rw [lowField, ← BitVec.setWidth_eq_extractLsb' (by omega), resultData, BitVec.setWidth_setWidth_of_le _ (by omega),
    BitVec.setWidth_setWidth_of_le _ (by omega), BitVec.setWidth_eq]

end Sys2Proof.Machine

namespace Sys2Proof.Proofs

open Sys2Proof.Machine

/-- Settles O48, by the fields of each instruction's word. -/
theorem decodeAfterEncode : Obligations.DecodeAfterEncode := decode_encode

/-- Settles O49: opcode, zeros and operands are all the bits of a word. -/
theorem encodeAfterDecode : Obligations.EncodeAfterDecode := fun _ _ => encode_of_decode

/-- Settles O6: the decoder's three answers are the pseudocode's three kinds of arm. -/
theorem issueFollowsThePseudocode : Obligations.IssueFollowsThePseudocode := by
  rintro s w rest ⟨hs, hm⟩
  rw [step_issue w hs hm, issueWordEffect_eq_issuePseudocode]
  rfl

/-- Settles O7: the issue writes the error response, and the take that follows hands it over. -/
theorem reservedOpcodeIsReportedAndRecoverable : Obligations.ReservedOpcodeIsReportedAndRecoverable := by
  rintro s w rest ⟨hs, hm⟩ hreserved
  have heffect := issuePseudocode_of_reserved s.engine ((ofCode_eq_none_iff (opcOf w)).mpr hreserved)
  constructor
  · rw [step_issue w hs hm, issueWordEffect_eq_issuePseudocode, heffect]
    rfl
  · exact step_take rfl rfl

/-- Settles O4: at `Start` the port hands a decodable word to `exec`. -/
theorem stepIssuesTheDecodedInstruction : Obligations.StepIssuesTheDecodedInstruction := by
  rintro s w rest i ⟨hs, hm⟩ hd
  simp [step, portStep, hm, hs, issueWord, hd]

/-- Settles O5, by evaluating the decoder on the eight words. -/
theorem sampleWordsDecode : Obligations.SampleWordsDecode := by
  unfold Obligations.SampleWordsDecode
  decide

/-- Settles O50: the two subkeys of the response are the last two fields of the request. -/
theorem deriveResponseFitsBlockRequest : Obligations.DeriveResponseFitsBlockRequest := fun block ks =>
  ⟨requestFromDerive_subkeyData .enc block ks, requestFromDerive_subkeyData .dec block ks,
    toNat_requestFromDerive .enc block _, toNat_requestFromDerive .dec block _⟩

/-- Settles O52: parsing and writing out are inverse, for literals and so for whole lines. -/
theorem assemblerEmitsLegalWords : Obligations.AssemblerEmitsLegalWords := by
  refine ⟨fun op operands => ⟨?_, fun ws h => ?_⟩, fun i => ?_, fun n v => ?_, fun n cs => ?_, fun w => rfl⟩
  · exact Option.isSome_map.trans (parseRequest_isSome op operands)
  · obtain ⟨i, hi, rfl⟩ := Option.map_eq_some_iff.mp h
    obtain ⟨hop, hline⟩ := line_of_parseRequest hi
    exact ⟨i, rfl, hop, hline, decode_encode i⟩
  · rw [assembleLine, parseRequest_operandLiterals]
    rfl
  · exact ⟨renderBits_length v, fun i h1 hn => renderBits_getElem? v h1 hn⟩
  · refine ⟨parseBits_isSome n cs, fun v h i h1 hn => ?_⟩
    rw [eq_renderBits_of_parseBits h, renderBits_getElem? v h1 hn]
    cases bit v i <;> simp

/-- Settles O53: the response of the second request, whose word is that of ENC or DEC (O50). -/
theorem macrosEncryptAndDecrypt : Obligations.MacrosEncryptAndDecrypt := by
  intro key block s h
  obtain ⟨t, ht, henc⟩ := blockMacro_eq .enc key block h
  obtain ⟨u, hu, hdec⟩ := blockMacro_eq .dec key block h
  obtain ⟨hencWord, hdecWord, -, -⟩ := deriveResponseFitsBlockRequest block (deriveSubkeys tables key)
  rw [hencWord, wordResponse_encode] at henc
  rw [hdecWord, wordResponse_encode] at hdec
  simp only [zext16_toNat]
  exact ⟨⟨t, ht, henc⟩, u, hu, hdec⟩

/-- Settles O54: the output line is the result of the two requests the marker names. -/
theorem textProtocolFollowsTheMarker : Obligations.TextProtocolFollowsTheMarker := by
  intro marker s h
  constructor
  · intro key block hbad
    rw [← parseBits_isSome, ← parseBits_isSome] at hbad
    unfold textProtocol
    split
    · next hk hb => exact absurd (by simp [hk, hb]) hbad
    · rfl
  · intro key block
    obtain ⟨⟨t, -, henc⟩, u, -, hdec⟩ := macrosEncryptAndDecrypt key block s h
    simp only [textProtocol, parseBits_renderBits, henc, hdec, zext16_toNat]
    split
    · simp [lowField_resultData]
    · simp [lowField_resultData]

end Sys2Proof.Proofs
end

section
/-! PROOF. The statements of 40_bitvector.md (O8 to O10, O41 to O44, O46): the laws of permutations, of rotation and
of the tables, position by position, and the rule every one-operand request follows that completes in its issue step. -/

namespace Sys2Proof.Machine

/-! ## Vectors of one value, and of a single 1 -/

theorem bit_zeros (n i : Nat) : bit (0 : Vec n) i = false := by simp [bit]

theorem bit_allOnes {n i : Nat} (h1 : 1 ≤ i) (hn : i ≤ n) : bit (BitVec.allOnes n) i = true := by
  obtain ⟨k, rfl⟩ : ∃ k, i = k + 1 := ⟨i - 1, by omega⟩
  have hk : k < n := by omega
  have hplace : n - 1 - k < n := by omega
  rw [bit_succ, BitVec.getMsbD_eq_getLsbD]
  simp [hk, hplace]

theorem bit_single {n p : Nat} (h1 : 1 ≤ p) (hn : p ≤ n) (i : Nat) : bit (single n p) i = decide (i = p) := by
  cases i with
  | zero =>
    have hne : ¬ 0 = p := by omega
    simp [hne]
  | succ k =>
    have hplace : (k < n ∧ n - p < n ∧ n - p = n - 1 - k) ↔ k + 1 = p := by omega
    rw [bit_succ, single, BitVec.getMsbD_eq_getLsbD, BitVec.getLsbD_twoPow]
    simp [← hplace]

/-! ## Permutations: a table copies the bits it names -/

/-- A permutation of two vectors that agree at every position the table names. -/
theorem permute_congr {n m : Nat} (T : PermTable n m) {v v' : Vec n}
    (h : ∀ i, 1 ≤ i → i ≤ m → bit v (T.entry i) = bit v' (T.entry i)) : permute T v = permute T v' :=
  vec_ext fun i h1 hm => by rw [bit_permute T v h1 hm, bit_permute T v' h1 hm, h i h1 hm]

theorem copiesBits {n m : Nat} (T : PermTable n m) : CopiesBits T := by
  refine ⟨vec_ext fun i h1 hm => ?_, vec_ext fun i h1 hm => ?_, fun p i hp hpn h1 hm => ?_⟩
  · rw [bit_permute T _ h1 hm, bit_zeros, bit_zeros]
  · obtain ⟨he1, hen⟩ := entry_inRange T h1 hm
    rw [bit_permute T _ h1 hm, bit_allOnes he1 hen, bit_allOnes h1 hm]
  · rw [bit_permute T _ h1 hm, bit_single hp hpn]

/-- The places of a table from 1 to m hold its entries in order. -/
theorem entries_eq_map_entry {n m : Nat} (T : PermTable n m) :
    T.entries = (List.range m).map fun k => T.entry (k + 1) := by
  refine List.ext_getElem (by simp [T.shape]) fun k hk _ => ?_
  simp [PermTable.entry, hk]

/-- A single 1 is copied as often as the table names its position. -/
theorem ones_permute_single {n m p : Nat} (T : PermTable n m) (h1 : 1 ≤ p) (hn : p ≤ n) :
    ones (permute T (single n p)) = T.entries.count p := by
  obtain ⟨-, -, hsingle⟩ := copiesBits T
  rw [ones, entries_eq_map_entry, List.count_eq_countP, List.countP_map, List.countP_eq_length_filter]
  refine congrArg List.length (List.filter_congr fun k hk => ?_)
  have hk : k < m := List.mem_range.mp hk
  rw [hsingle p (k + 1) h1 hn (by omega) (by omega)]
  rfl

theorem permute_ipInv_ip (T : Tables) (v : Vec 8) : permute T.ipInv (permute T.ip v) = v :=
  vec_ext fun i h1 h8 => by
    obtain ⟨he1, he8⟩ := entry_inRange T.ipInv h1 h8
    rw [bit_permute _ _ h1 h8, bit_permute _ _ he1 he8, ip_ipInv_entry T h1 h8]

/-- IP has the left inverse IPinv, so as a map of a finite set to itself it is onto, and IPinv is its right inverse. -/
theorem permute_ip_ipInv (T : Tables) (v : Vec 8) : permute T.ip (permute T.ipInv v) = v := by
  have hleft : Function.LeftInverse (permute T.ipInv) (permute T.ip) := permute_ipInv_ip T
  have honto : Function.Surjective (permute T.ip) := Finite.surjective_of_injective hleft.injective
  exact hleft.rightInverse_of_surjective honto v

/-! ## Rotation -/

theorem rotateLeft_zero {L : Nat} (v : Vec L) : rotateLeft v 0 = v :=
  vec_ext fun i h1 hL => by
    have hi : i - 1 + 0 < L := by omega
    rw [bit_rotateLeft v 0 h1 hL, Nat.mod_eq_of_lt hi, Nat.add_zero, Nat.sub_add_cancel h1]

theorem rotateLeft_length {L : Nat} (v : Vec L) : rotateLeft v L = v :=
  vec_ext fun i h1 hL => by
    have hi : i - 1 < L := by omega
    rw [bit_rotateLeft v L h1 hL, Nat.add_mod_right, Nat.mod_eq_of_lt hi, Nat.sub_add_cancel h1]

theorem rotateLeft_rotateLeft {L : Nat} (v : Vec L) (a b : Nat) :
    rotateLeft (rotateLeft v a) b = rotateLeft v (a + b) :=
  vec_ext fun i h1 hL => by
    have hplace : (i - 1 + b) % L < L := Nat.mod_lt _ (by omega)
    rw [bit_rotateLeft _ b h1 hL, bit_rotateLeft v a (by omega) (by omega), bit_rotateLeft v _ h1 hL,
      Nat.add_sub_cancel, Nat.mod_add_mod, Nat.add_assoc, Nat.add_comm b a]

/-- The first element wraps round to the end. -/
theorem bit_rotateLeft_one_last {L : Nat} (v : Vec L) (h : 1 ≤ L) : bit (rotateLeft v 1) L = bit v 1 := by
  rw [bit_rotateLeft v 1 h le_rfl, Nat.sub_add_cancel h, Nat.mod_self]

/-! ## The check of R60 and R79 accepts a raw argument iff it is the raw form of accepted tables -/

/-- Accepted tables as the plain lists they were accepted from. -/
def rawOf (T : Tables) : RawTables :=
  { p10 := T.p10.entries, p8 := T.p8.entries, ip := T.ip.entries, ipInv := T.ipInv.entries
    ep := T.ep.entries, p4 := T.p4.entries, s0 := T.s0.rows, s1 := T.s1.rows }

@[simp] theorem permTable?_entries {n m : Nat} (T : PermTable n m) : permTable? n m T.entries = some T :=
  dif_pos ⟨T.shape, T.inRange⟩

theorem entries_of_permTable? {n m : Nat} {l : List Nat} {T : PermTable n m} (h : permTable? n m l = some T) :
    T.entries = l := by
  unfold permTable? at h
  split at h
  · cases h; rfl
  · cases h

@[simp] theorem sBox?_rows (S : SBox) : sBox? S.rows = some S := dif_pos ⟨S.shape, S.inRange⟩

theorem rows_of_sBox? {rows : List (List Nat)} {S : SBox} (h : sBox? rows = some S) : S.rows = rows := by
  unfold sBox? at h
  split at h
  · cases h; rfl
  · cases h

theorem configure_rawOf (T : Tables) : configure (rawOf T) = some T := by
  simp only [configure, rawOf, permTable?_entries, sBox?_rows]
  exact dif_pos T.inverse

theorem configure_eq_some_iff (r : RawTables) (T : Tables) : configure r = some T ↔ rawOf T = r := by
  constructor
  · intro h
    unfold configure at h
    split at h
    · next h10 h8 hip hinv hep h4 hs0 hs1 =>
      split at h
      · cases h
        simp [rawOf, entries_of_permTable? h10, entries_of_permTable? h8, entries_of_permTable? hip,
          entries_of_permTable? hinv, entries_of_permTable? hep, entries_of_permTable? h4, rows_of_sBox? hs0,
          rows_of_sBox? hs1]
      · cases h
    · cases h
  · rintro rfl
    exact configure_rawOf T

theorem entry_eq_getD {n m i : Nat} (T : PermTable n m) (h : 1 ≤ i) : T.entry i = T.entries.getD (i - 1) 0 :=
  if_neg (by omega)

/-- The last line of R60 on entries and on the raw lists. -/
theorem entry_entry_eq_getD {a n m : Nat} (T : PermTable a n) (U : PermTable n m) {i : Nat} (h : i < m) :
    T.entry (U.entry (i + 1)) = T.entries.getD (U.entries.getD i 0 - 1) 0 := by
  obtain ⟨hpos, -⟩ := entry_inRange U (Nat.succ_pos i) h
  rw [entry_eq_getD T hpos, entry_eq_getD U (Nat.succ_pos i)]
  rfl

theorem sBox_lines_iff (rows : List (List Nat)) :
    (rows.length = 4 ∧ ∀ row ∈ rows, row.length = 4 ∧ ∀ x ∈ row, x ≤ 3) ↔ ∃ S : SBox, S.rows = rows := by
  constructor
  · rintro ⟨hlen, hrows⟩
    exact ⟨⟨rows, ⟨hlen, fun row h => (hrows row h).1⟩, fun row h => (hrows row h).2⟩, rfl⟩
  · rintro ⟨⟨rows, ⟨hlen, hwidth⟩, hrange⟩, rfl⟩
    exact ⟨hlen, fun row h => ⟨hwidth row h, hrange row h⟩⟩

theorem tablesMeetInvariants_iff (r : RawTables) : TablesMeetInvariants r ↔ ∃ T, rawOf T = r := by
  constructor
  · rintro ⟨⟨l10, r10⟩, ⟨l8, r8⟩, ⟨lip, rip⟩, ⟨linv, rinv⟩, ⟨lep, rep⟩, ⟨l4, r4⟩, h0, h1, hinverse⟩
    obtain ⟨S0, hS0⟩ := (sBox_lines_iff r.s0).mp h0
    obtain ⟨S1, hS1⟩ := (sBox_lines_iff r.s1).mp h1
    let ip : PermTable 8 8 := ⟨r.ip, lip, rip⟩
    let ipInv : PermTable 8 8 := ⟨r.ipInv, linv, rinv⟩
    have hentries : ∀ i < 8, ip.entry (ipInv.entry (i + 1)) = i + 1 := fun i h =>
      (entry_entry_eq_getD ip ipInv h).trans (hinverse i h)
    refine ⟨⟨⟨r.p10, l10, r10⟩, ⟨r.p8, l8, r8⟩, ip, ipInv, ⟨r.ep, lep, rep⟩, ⟨r.p4, l4, r4⟩, S0, S1, hentries⟩, ?_⟩
    rw [rawOf, hS0, hS1]
  · rintro ⟨T, rfl⟩
    exact ⟨⟨T.p10.shape, T.p10.inRange⟩, ⟨T.p8.shape, T.p8.inRange⟩, ⟨T.ip.shape, T.ip.inRange⟩,
      ⟨T.ipInv.shape, T.ipInv.inRange⟩, ⟨T.ep.shape, T.ep.inRange⟩, ⟨T.p4.shape, T.p4.inRange⟩,
      (sBox_lines_iff _).mpr ⟨T.s0, rfl⟩, (sBox_lines_iff _).mpr ⟨T.s1, rfl⟩,
      fun i h => (entry_entry_eq_getD T.ip T.ipInv h).symm.trans (T.inverse i h)⟩

/-! ## One-operand requests that complete in the issue step -/

theorem decode_of_wellFormed {op : Op} {w : Word} (hopc : opcOf w = op.code) (hmask : w &&& op.mbz = 0) :
    decode w = .ok (op.instr w) :=
  (congrArg decode (encode_instr hopc hmask)).symm.trans (decode_encode _)

theorem step_malformed {op : Op} {s : State} {w : Word} {rest : List Move} (hp : Presents s w rest)
    (hopc : opcOf w = op.code) (hmask : w &&& op.mbz ≠ 0) :
    step s = .next (answered (s.withMoves rest) statMalformed 0) := by
  obtain ⟨hs, hm⟩ := hp
  rw [step_issue w hs hm, issueWordEffect_eq_issuePseudocode, issuePseudocode_of_malformed _ hopc hmask]
  rfl

/-- A request with one operand in the low field that is answered with `OK` and a result vector in its issue step. -/
theorem oneStepRequest {n m : Nat} (op : Op) {instr : Vec n → Instr} {result : Vec n → Vec m}
    (hinstr : ∀ w, op.instr w = instr (lowField n w))
    (heffect : ∀ v, issueEffect tables (instr v) = respond statOk (resultData (result v))) :
    OneStepRequest op.code op.mbz instr fun v => zext16 (result v).toNat := by
  refine ⟨fun v s hs => ?_, fun w hopc hmask => ?_, fun s w rest hp hopc hmask => step_malformed hp hopc hmask⟩
  · rw [exec_eq_accept, accept_ready _ hs, heffect]
    exact congrArg (fun data => Host.Outcome.next (answered s statOk data)) (zext16_toNat _).symm
  · exact (decode_of_wellFormed hopc hmask).trans (congrArg Decoded.ok (hinstr w))

/-- P8 names no position below 3 (R74). -/
theorem three_le_p8_entry {i : Nat} (h1 : 1 ≤ i) (h8 : i ≤ 8) : 3 ≤ tables.p8.entry i := by
  have hall : ∀ i < 9, 1 ≤ i → 3 ≤ tables.p8.entry i := by decide
  exact hall i (by omega) h1

/-- EP names each of the positions 1 to 4 twice (R77). -/
theorem count_ep_entries {p : Nat} (h1 : 1 ≤ p) (h4 : p ≤ 4) : tables.ep.entries.count p = 2 := by
  have hall : ∀ p < 5, 1 ≤ p → tables.ep.entries.count p = 2 := by decide
  exact hall p (by omega) h1

end Sys2Proof.Machine

namespace Sys2Proof.Proofs

open Sys2Proof.Machine

/-- Settles O41: each position of the output, by the entry there, which is in range. -/
theorem permuteCopiesNamedBits : Obligations.PermuteCopiesNamedBits := by
  refine fun n m T => ⟨fun v i h1 hm => ?_, copiesBits T⟩
  obtain ⟨he1, hen⟩ := entry_inRange T h1 hm
  exact ⟨he1, hen, bit_permute T v h1 hm⟩

/-- Settles O42: one order by R60 entry by entry, the other because a block has finitely many values. -/
theorem initialPermutationsAreInverse : Obligations.InitialPermutationsAreInverse := fun T v =>
  ⟨permute_ipInv_ip T v, permute_ip_ipInv T v⟩

/-- Settles O43, position by position; the laws are those of addition modulo the length. -/
theorem rotateLeftIsCyclic : Obligations.RotateLeftIsCyclic := fun _ v =>
  ⟨fun n _ => bit_rotateLeft v n, rotateLeft_zero v, rotateLeft_length v, rotateLeft_rotateLeft v,
    bit_rotateLeft_one_last v, by decide, by decide, by decide⟩

/-- Settles O44: the laws are those of the exclusive-or of words. -/
theorem xorBitsLaws : Obligations.XorBitsLaws := by
  intro n a b
  have htwice : xorBits (xorBits a b) b = a := by
    unfold xorBits
    rw [BitVec.xor_assoc, BitVec.xor_self, BitVec.xor_zero]
  exact ⟨bit_xorBits a b, BitVec.xor_self, htwice, BitVec.xor_comm a b, by decide, by decide⟩

/-- Settles O46: the check accepts what is the raw form of accepted tables, which is what R60 and R79 ask for. -/
theorem badTablesAreRefused : Obligations.BadTablesAreRefused := by
  intro r
  constructor
  · intro h
    obtain ⟨T, rfl⟩ := (tablesMeetInvariants_iff r).mp h
    refine ⟨T, configure_rawOf T, rfl, rfl, rfl, rfl, rfl, rfl, rfl, rfl, fun s => ?_⟩
    rw [configuredStep, configure_rawOf]
  · intro h s
    have hnone : configure r = none := Option.eq_none_iff_forall_ne_some.mpr fun T hT =>
      h ((tablesMeetInvariants_iff r).mpr ⟨T, (configure_eq_some_iff r T).mp hT⟩)
    rw [configuredStep, hnone]

/-- Settles O8: P10 and P8 are one-step requests, and P8 names no position below 3. -/
theorem keyPermutationRequests : Obligations.KeyPermutationRequests :=
  ⟨oneStepRequest .permP10 (fun _ => rfl) fun _ => rfl, oneStepRequest .permP8 (fun _ => rfl) fun _ => rfl,
    copiesBits _, copiesBits _,
    fun _ _ h => permute_congr _ fun _ h1 h8 => h _ (three_le_p8_entry h1 h8) (entry_inRange _ h1 h8).2,
    by decide, by decide, by decide, by decide⟩

/-- Settles O9: IP and IPinv are one-step requests, inverse on any accepted tables. -/
theorem blockPermutationRequests : Obligations.BlockPermutationRequests :=
  ⟨oneStepRequest .permIp (fun _ => rfl) fun _ => rfl, oneStepRequest .permIpinv (fun _ => rfl) fun _ => rfl,
    copiesBits _, copiesBits _, initialPermutationsAreInverse tables, by decide, by decide, by decide, by decide⟩

/-- Settles O10: EP and P4 are one-step requests, and EP names each position twice. -/
theorem nibblePermutationRequests : Obligations.NibblePermutationRequests :=
  ⟨oneStepRequest .permEp (fun _ => rfl) fun _ => rfl, oneStepRequest .permP4 (fun _ => rfl) fun _ => rfl,
    copiesBits _, copiesBits _, fun _ h1 h4 => (ones_permute_single _ h1 h4).trans (count_ep_entries h1 h4),
    by decide, by decide, by decide, by decide⟩

end Sys2Proof.Proofs
end

section
/-! PROOF. The statements of 41_sbox.md (O11, O45): a lookup in an accepted S-box is always in range, so what
`substitute` answers is the entry itself, and SBOX.S0 and SBOX.S1 are one-step requests. -/

namespace Sys2Proof.Machine

/-- The row index is one of 0 to 3 (R83). -/
theorem sboxRow_lt_four (x : Vec 4) : sboxRow x < 4 := by
  have h1 := Bool.toNat_le (bit x 1)
  have h4 := Bool.toNat_le (bit x 4)
  unfold sboxRow
  omega

/-- The column index is one of 0 to 3 (R83). -/
theorem sboxCol_lt_four (x : Vec 4) : sboxCol x < 4 := by
  have h2 := Bool.toNat_le (bit x 2)
  have h3 := Bool.toNat_le (bit x 3)
  unfold sboxCol
  omega

/-- Every lookup with indexes from 0 to 3 finds a row, and in it the entry, which is at most 3 (R79, R83). -/
theorem sboxEntry_inRange (S : SBox) {r c : Nat} (hr : r < 4) (hc : c < 4) :
    ∃ entries, S.rows[r]? = some entries ∧ entries[c]? = some (sboxEntry S r c) ∧ sboxEntry S r c ≤ 3 := by
  have hr' : r < S.rows.length := by rw [S.shape.1]; exact hr
  have hrow : S.rows.getD r [] = S.rows[r] := List.getD_eq_getElem _ _ hr'
  have hc' : c < S.rows[r].length := by rw [← hrow, sBox_row_length S hr]; exact hc
  have hentry : sboxEntry S r c = S.rows[r][c] := by
    rw [sboxEntry, hrow, List.getD_eq_getElem _ _ hc']
  rw [hentry]
  exact ⟨S.rows[r], List.getElem?_eq_getElem hr', List.getElem?_eq_getElem hc',
    S.inRange _ (List.getElem_mem hr') _ (List.getElem_mem hc')⟩

/-- The result vector holds the entry itself: no entry of an accepted S-box is cut off (R82, R83). -/
theorem toNat_substitute (x : Vec 4) (S : SBox) :
    (substitute x S).toNat = sboxEntry S (sboxRow x) (sboxCol x) := by
  obtain ⟨_, _, _, hle⟩ := sboxEntry_inRange S (sboxRow_lt_four x) (sboxCol_lt_four x)
  rw [substitute, BitVec.toNat_ofNat]
  exact Nat.mod_eq_of_lt (by omega)

/-- Position i of a vector is the binary digit of value 2^(n - i) of its number (R10). -/
theorem bit_eq_decide_toNat {n i : Nat} (v : Vec n) (h1 : 1 ≤ i) (hn : i ≤ n) :
    bit v i = decide (v.toNat / 2 ^ (n - i) % 2 = 1) := by
  rw [Proofs.positionOneIsMostSignificant n v i h1 hn, BitVec.getLsbD, Nat.testBit_eq_decide_div_mod_eq]

end Sys2Proof.Machine

namespace Sys2Proof.Proofs

open Sys2Proof.Machine

/-- Settles O45: the two indexes are in range, so there is an entry, and it fits the two positions of the result. -/
theorem substituteReadsRowAndColumn : Obligations.SubstituteReadsRowAndColumn := by
  intro S x
  have hrow := sboxRow_lt_four x
  have hcol := sboxCol_lt_four x
  obtain ⟨entries, hentries, hentry, hle⟩ := sboxEntry_inRange S hrow hcol
  refine ⟨sboxRow x, sboxCol x, rfl, rfl, hrow, hcol, entries, _, hentries, hentry, hle, toNat_substitute x S, ?_, ?_⟩
  · have hhalf : sboxEntry S (sboxRow x) (sboxCol x) / 2 < 2 := by omega
    rw [bit_eq_decide_toNat _ le_rfl (by omega), toNat_substitute, pow_one, Nat.mod_eq_of_lt hhalf]
  · rw [bit_eq_decide_toNat _ (by omega) le_rfl, toNat_substitute, Nat.sub_self, pow_zero, Nat.div_one]

/-- Settles O11: S0 and S1 are one-step requests; the listings of R84 are the default boxes read at all 16 nibbles. -/
theorem sboxRequests : Obligations.SboxRequests :=
  ⟨oneStepRequest .sboxS0 (fun _ => rfl) fun _ => rfl, oneStepRequest .sboxS1 (fun _ => rfl) fun _ => rfl,
    by decide, by decide, by decide, by decide⟩

end Sys2Proof.Proofs
end

section
/-! PROOF. The statements of 42_key_schedule.md (O12, O39, O40). For accepted tables, P10, the rotation of the halves
and P8 together are one permutation table 10→8 for each subkey, so the laws of permutations say all of it. -/

namespace Sys2Proof.Machine

/-! ## The subkeys on the halves of the P10 output -/

/-- Two halves, each rotated left by r, then P8: the subkey of total rotation r (R88, R89). -/
def subkeyAfter (T : Tables) (r : Nat) (p : Vec 10) : Vec 8 :=
  permute T.p8 (rotateLeft (leftKey p) r ++ rotateLeft (rightKey p) r)

/-- Round 2 rotates what round 1 rotated, so its total is 3 (R89). -/
theorem deriveSubkeys_eq_subkeyAfter (T : Tables) (key : Vec 10) :
    deriveSubkeys T key = (subkeyAfter T 1 (permute T.p10 key), subkeyAfter T 3 (permute T.p10 key)) := by
  simp only [deriveSubkeys, subkeyOf, rotateHalves, rotateLeft_rotateLeft, subkeyAfter]

/-! ## Each subkey as one permutation of the key -/

/-- The position of the P10 output that stands at position j after both halves are rotated left by r. -/
def rotatedPlace (r j : Nat) : Nat := if j ≤ 5 then (j - 1 + r) % 5 + 1 else (j - 6 + r) % 5 + 6

theorem rotatedPlace_inRange (r j : Nat) : 1 ≤ rotatedPlace r j ∧ rotatedPlace r j ≤ 10 := by
  unfold rotatedPlace
  split <;> omega

theorem bit_rotatedHalves {j : Nat} (p : Vec 10) (r : Nat) (h1 : 1 ≤ j) (h10 : j ≤ 10) :
    bit (rotateLeft (leftKey p) r ++ rotateLeft (rightKey p) r) j = bit p (rotatedPlace r j) := by
  have hplace : ∀ a, a % 5 + 1 ≤ 5 := fun a => Nat.mod_lt a (by decide)
  rw [bit_append, rotatedPlace]
  split
  · next hleft =>
    rw [bit_rotateLeft _ r h1 hleft, leftKey, bit_slice _ (Nat.succ_pos _) (hplace _), Nat.sub_self, Nat.zero_add]
  · next hright =>
    rw [bit_rotateLeft _ r (by omega) (by omega), rightKey, bit_slice _ (Nat.succ_pos _) (hplace _), Nat.sub_sub]
    congr 1
    omega

/-- The key position that position i of the subkey of total rotation r copies. -/
def subkeySource (T : Tables) (r i : Nat) : Nat := T.p10.entry (rotatedPlace r (T.p8.entry i))

theorem subkeySource_inRange (T : Tables) (r i : Nat) : 1 ≤ subkeySource T r i ∧ subkeySource T r i ≤ 10 := by
  obtain ⟨h1, h10⟩ := rotatedPlace_inRange r (T.p8.entry i)
  exact entry_inRange T.p10 h1 h10

/-- The sources of a subkey's eight positions, as a table 10→8. -/
def subkeyTable (T : Tables) (r : Nat) : PermTable 10 8 where
  entries := (List.range 8).map fun k => subkeySource T r (k + 1)
  shape := by simp
  inRange := by simp [subkeySource_inRange]

theorem subkeyTable_entry (T : Tables) (r : Nat) {i : Nat} (h1 : 1 ≤ i) (h8 : i ≤ 8) :
    (subkeyTable T r).entry i = subkeySource T r i := by
  obtain ⟨k, rfl⟩ : ∃ k, i = k + 1 := ⟨i - 1, by omega⟩
  have hk : k < 8 := h8
  simp [entry_eq_getD, subkeyTable, hk]

theorem subkeyAfter_permute_p10 (T : Tables) (r : Nat) (key : Vec 10) :
    subkeyAfter T r (permute T.p10 key) = permute (subkeyTable T r) key :=
  vec_ext fun i h1 h8 => by
    obtain ⟨he1, he10⟩ := entry_inRange T.p8 h1 h8
    obtain ⟨hp1, hp10⟩ := rotatedPlace_inRange r (T.p8.entry i)
    rw [subkeyAfter, bit_permute _ _ h1 h8, bit_rotatedHalves _ r he1 he10, bit_permute _ _ hp1 hp10,
      bit_permute _ _ h1 h8, subkeyTable_entry T r h1 h8, subkeySource]

theorem deriveSubkeys_eq_permute (T : Tables) (key : Vec 10) :
    deriveSubkeys T key = (permute (subkeyTable T 1) key, permute (subkeyTable T 3) key) := by
  rw [deriveSubkeys_eq_subkeyAfter, subkeyAfter_permute_p10, subkeyAfter_permute_p10]

/-- The bits of a permuted vector, first to last, are those its table lists. -/
theorem map_bit_permute {n m : Nat} (T : PermTable n m) (v : Vec n) :
    (List.range m).map (fun k => bit (permute T v) (k + 1)) = T.entries.map (bit v) := by
  rw [entries_eq_map_entry T, List.map_map]
  refine List.map_congr_left fun k hk => ?_
  exact bit_permute T v (Nat.succ_pos k) (List.mem_range.mp hk)

/-! ## The default tables, and the all-zero, all-one and single-1 keys -/

/-- K1 of the default tables takes these key positions (R92). -/
theorem entries_subkeyTable_one : (subkeyTable tables 1).entries = [1, 7, 9, 4, 8, 3, 10, 6] := by decide

/-- K2 of the default tables takes these key positions (R92). -/
theorem entries_subkeyTable_three : (subkeyTable tables 3).entries = [8, 3, 6, 5, 10, 2, 9, 1] := by decide

theorem deriveSubkeys_zero (T : Tables) : deriveSubkeys T 0 = (0, 0) := by
  obtain ⟨hK1, -, -⟩ := copiesBits (subkeyTable T 1)
  obtain ⟨hK2, -, -⟩ := copiesBits (subkeyTable T 3)
  rw [deriveSubkeys_eq_permute, hK1, hK2]

theorem deriveSubkeys_allOnes (T : Tables) :
    deriveSubkeys T (BitVec.allOnes 10) = (BitVec.allOnes 8, BitVec.allOnes 8) := by
  obtain ⟨-, hK1, -⟩ := copiesBits (subkeyTable T 1)
  obtain ⟨-, hK2, -⟩ := copiesBits (subkeyTable T 3)
  rw [deriveSubkeys_eq_permute, hK1, hK2]

/-- A table that names no position twice copies a single 1 at most once. -/
theorem ones_permute_single_le_one {n m p : Nat} {T : PermTable n m} (hT : T.entries.Nodup) (h1 : 1 ≤ p)
    (hn : p ≤ n) : ones (permute T (single n p)) ≤ 1 :=
  (ones_permute_single T h1 hn).trans_le (List.nodup_iff_count_le_one.mp hT p)

theorem ones_deriveSubkeys_single {p : Nat} (h1 : 1 ≤ p) (h10 : p ≤ 10) :
    ones (deriveSubkeys tables (single 10 p)).1 ≤ 1 ∧ ones (deriveSubkeys tables (single 10 p)).2 ≤ 1 := by
  have hK1 : (subkeyTable tables 1).entries.Nodup := by rw [entries_subkeyTable_one]; decide
  have hK2 : (subkeyTable tables 3).entries.Nodup := by rw [entries_subkeyTable_three]; decide
  rw [deriveSubkeys_eq_permute]
  exact ⟨ones_permute_single_le_one hK1 h1 h10, ones_permute_single_le_one hK2 h1 h10⟩

/-! ## DERIVE -/

theorem resultData_eq_self (d : Data) : resultData d = d := BitVec.setWidth_eq d

/-- DERIVE is a one-step request whose result vector is the pair of subkeys, K1 first (R93). -/
theorem oneStepRequest_derive : OneStepRequest Op.derive.code Op.derive.mbz .derive fun k =>
    zext16 ((deriveSubkeys tables k).1.toNat * 256 + (deriveSubkeys tables k).2.toNat) := by
  have hdata (k : Vec 10) : zext16 ((deriveSubkeys tables k).1.toNat * 256 + (deriveSubkeys tables k).2.toNat) =
      zext16 (subkeyData (deriveSubkeys tables k)).toNat := by
    rw [zext16_subkeys, zext16_toNat, resultData_eq_self]
  simp only [hdata]
  refine oneStepRequest .derive (fun _ => rfl) fun k => ?_
  rw [resultData_eq_self]
  rfl

end Sys2Proof.Machine

namespace Sys2Proof.Proofs

open Sys2Proof.Machine

/-- Settles O12: DERIVE is a one-step request, and each subkey is one permutation of the key, which on the default
tables names no key position twice. -/
theorem deriveRequest : Obligations.DeriveRequest :=
  ⟨oneStepRequest_derive, fun T => ⟨deriveSubkeys_zero T, deriveSubkeys_allOnes T⟩,
    fun _ => ones_deriveSubkeys_single, by decide, by decide⟩

/-- Settles O39: rotations of a half add up. -/
theorem subkeyRotationTotals : Obligations.SubkeyRotationTotals := deriveSubkeys_eq_subkeyAfter

/-- Settles O40: the listing of R92 is the table of each subkey. -/
theorem subkeysInClosedForm : Obligations.SubkeysInClosedForm := by
  intro key
  rw [deriveSubkeys_eq_permute, map_bit_permute, map_bit_permute, entries_subkeyTable_one, entries_subkeyTable_three]
  exact ⟨rfl, rfl⟩

end Sys2Proof.Proofs
end

section
/-! PROOF. The statements of 43_round_function.md (O34 to O36): a round is said by its two halves, the right one
unchanged and the left one XORed with `feistel` of the right one, and each statement is a law of that XOR. -/

namespace Sys2Proof.Machine

theorem xorBits_comm {n : Nat} (a b : Vec n) : xorBits a b = xorBits b a := by
  obtain ⟨-, -, -, hcomm, -⟩ := Proofs.xorBitsLaws n a b
  exact hcomm

theorem xorBits_xorBits_cancel_right {n : Nat} (a b : Vec n) : xorBits (xorBits a b) b = a := by
  obtain ⟨-, -, htwice, -⟩ := Proofs.xorBitsLaws n a b
  exact htwice

theorem xorBits_xorBits_cancel_left {n : Nat} (a b : Vec n) : xorBits a (xorBits a b) = b := by
  rw [xorBits_comm a b, xorBits_comm, xorBits_xorBits_cancel_right]

/-- Positions 5 to 8 of a block are positions 1 to 4 of its right half (R70). -/
theorem bit_rightBlock {i : Nat} (v : Vec 8) (h5 : 5 ≤ i) (h8 : i ≤ 8) : bit (rightBlock v) (i - 4) = bit v i := by
  obtain ⟨k, rfl⟩ : ∃ k, i = 4 + k := ⟨i - 4, by omega⟩
  rw [Nat.add_sub_cancel_left, rightBlock, bit_slice v (by omega) (by omega)]

/-- Steps 2 to 5 of R94, with the two halves of the mixed vector named. -/
theorem feistel_eq_of_halves (T : Tables) {r : Vec 4} {k : Vec 8} {x1 x2 : Vec 4}
    (h : xorBits (permute T.ep r) k = x1 ++ x2) :
    feistel T r k = permute T.p4 (substitute x1 T.s0 ++ substitute x2 T.s1) := by
  rw [feistel, h, leftBlock_append, rightBlock_append]

section Round
variable (T : Tables) (v k : Vec 8)

@[simp] theorem leftBlock_roundFunction :
    leftBlock (roundFunction T v k) = xorBits (feistel T (rightBlock v) k) (leftBlock v) :=
  leftBlock_append _ _

@[simp] theorem rightBlock_roundFunction : rightBlock (roundFunction T v k) = rightBlock v :=
  rightBlock_append _ _

/-- What a round XORs into the left half is `feistel` of the right half (R95). -/
theorem xorBits_leftBlock_roundFunction :
    xorBits (leftBlock (roundFunction T v k)) (leftBlock v) = feistel T (rightBlock v) k := by
  rw [leftBlock_roundFunction, xorBits_xorBits_cancel_right]

end Round

/-- A round on a block given by its halves: the equation R94 states with `F`. -/
theorem roundFunction_append (T : Tables) (l r : Vec 4) (k : Vec 8) :
    roundFunction T (l ++ r) k = xorBits l (feistel T r k) ++ r := by
  rw [roundFunction, leftBlock_append, rightBlock_append, xorBits_comm]

end Sys2Proof.Machine

namespace Sys2Proof.Proofs

open Sys2Proof.Machine

/-- Settles O34: both rounds see the same right half, so they XOR the same value into the left half. -/
theorem roundFunctionIsSelfInverse : Obligations.RoundFunctionIsSelfInverse := by
  intro T v k
  calc roundFunction T (roundFunction T v k) k
      = xorBits (feistel T (rightBlock v) k) (xorBits (feistel T (rightBlock v) k) (leftBlock v)) ++ rightBlock v := by
        rw [roundFunction, leftBlock_roundFunction, rightBlock_roundFunction]
    _ = leftBlock v ++ rightBlock v := by rw [xorBits_xorBits_cancel_left]
    _ = v := leftBlock_append_rightBlock v

/-- Settles O36: the right half stays, and what is XORed into the left half is a function of it and the subkey. -/
theorem roundTransformsTheLeftHalfOnly : Obligations.RoundTransformsTheLeftHalfOnly := by
  constructor
  · intro T v k i h5 h8
    rw [← bit_rightBlock _ h5 h8, rightBlock_roundFunction, bit_rightBlock v h5 h8]
  · intro T v v' k hright
    rw [xorBits_leftBlock_roundFunction, xorBits_leftBlock_roundFunction, hright]

/-- Settles O35: the model's round on two halves, with its `feistel` written out. -/
theorem roundFunctionSevenSteps : Obligations.RoundFunctionSevenSteps := by
  intro T l r k x1 x2 hx
  rw [roundFunction_append, feistel_eq_of_halves T hx]

end Sys2Proof.Proofs
end

section
/-! PROOF. The statements of 44_cipher_driver.md (O13 to O15, O17, O23, O30, O32, O33, O37, O38). The round trip is
that of each transformation, undone in reverse order; the run of ENC and DEC is that of one latched request on any
accepted tables, with the subkeys in the order its direction reads them. -/

namespace Sys2Proof.Machine

/-! ## The halves exchanged -/

/-- Positions 1 to 4 of a block are those of its left half (R70). -/
theorem bit_leftBlock {i : Nat} (v : Vec 8) (h1 : 1 ≤ i) (h4 : i ≤ 4) : bit (leftBlock v) i = bit v i := by
  rw [leftBlock, bit_slice v h1 h4, Nat.sub_self, Nat.zero_add]

theorem bit_swapHalves_left {i : Nat} (v : Vec 8) (h1 : 1 ≤ i) (h4 : i ≤ 4) :
    bit (swapHalves v) i = bit v (i + 4) := by
  rw [swapHalves, bit_append, if_pos h4, ← bit_rightBlock v (by omega) (by omega), Nat.add_sub_cancel]

theorem bit_swapHalves_right {i : Nat} (v : Vec 8) (h1 : 1 ≤ i) (h4 : i ≤ 4) :
    bit (swapHalves v) (i + 4) = bit v i := by
  have hright : ¬ i + 4 ≤ 4 := by omega
  rw [swapHalves, bit_append, if_neg hright, Nat.add_sub_cancel, bit_leftBlock v h1 h4]

theorem swapHalves_swapHalves (v : Vec 8) : swapHalves (swapHalves v) = v := by
  calc swapHalves (swapHalves v) = leftBlock v ++ rightBlock v := by
        rw [swapHalves, swapHalves, rightBlock_append, leftBlock_append]
    _ = v := leftBlock_append_rightBlock v

/-! ## The cipher undone -/

/-- The structure with the subkeys exchanged undoes it: IP undoes the last IP⁻¹, each round undoes the round of its
own subkey, and the swap undoes the swap between them (R112). -/
theorem cipher_cipher (T : Tables) (b ka kb : Vec 8) : cipher T (cipher T b ka kb) kb ka = b := by
  have hround := Proofs.roundFunctionIsSelfInverse T
  rw [cipher, cipher, permute_ip_ipInv, hround, swapHalves_swapHalves, hround, permute_ipInv_ip]

theorem decryptBlock_encryptBlock (T : Tables) (p k1 k2 : Vec 8) :
    decryptBlock T (encryptBlock T p k1 k2) k1 k2 = p := cipher_cipher T p k1 k2

theorem encryptBlock_decryptBlock (T : Tables) (c k1 k2 : Vec 8) :
    encryptBlock T (decryptBlock T c k1 k2) k1 k2 = c := cipher_cipher T c k2 k1

/-- The cipher's value from the values of `W` along its run: after IP, round, swap and round (R100, R101). -/
theorem cipher_of_trace {T : Tables} {b ka kb v1 v2 v3 v4 c : Vec 8} (hip : permute T.ip b = v1)
    (hround1 : roundFunction T v1 ka = v2) (hswap : swapHalves v2 = v3) (hround2 : roundFunction T v3 kb = v4)
    (hfinal : permute T.ipInv v4 = c) : cipher T b ka kb = c := by
  rw [cipher, hip, hround1, hswap, hround2, hfinal]

/-! ## One step at a middle phase -/

theorem exists_step (s : State) : ∃ t, step s = .next t := by
  obtain ⟨_, _, h⟩ | ⟨_, _, _, h⟩ | ⟨_, _, _, _, h⟩ | ⟨_, _, h⟩ | ⟨_, h⟩ := step_cases s <;> exact ⟨_, h⟩

/-- At a middle phase a step without reset is the engine's own. -/
theorem engine_of_step_middle {s t : State} (h : step s = .next t) (hr : NoResetNext s) (hs : s.engine.ph ≠ .start)
    (hd : s.engine.ph ≠ .done) : t.engine = engineStep tables s.engine := by
  obtain ⟨_, _, ⟨hs', -⟩, -⟩ | ⟨hs', -⟩ | ⟨hd', -⟩ | ht := engine_cases_of_step h hr
  · exact absurd hs' hs
  · exact absurd hs' hs
  · exact absurd hd' hd
  · exact ht

theorem encrypts_iff (req : Word) : encrypts req = true ↔ req.extractLsb' 28 4 = 0x2#4 := beq_iff_eq

/-- The subkey of the first round, on the bits of `REQ` (R102, R106). -/
theorem round1Key_eq (req : Word) : round1Key req =
    if req.extractLsb' 28 4 = 0x2#4 then req.extractLsb' 8 8 else req.extractLsb' 0 8 :=
  if_congr (encrypts_iff req) rfl rfl

/-- The subkey of the second round, on the bits of `REQ` (R102, R108). -/
theorem round2Key_eq (req : Word) : round2Key req =
    if req.extractLsb' 28 4 = 0x2#4 then req.extractLsb' 0 8 else req.extractLsb' 8 8 :=
  if_congr (encrypts_iff req) rfl rfl

/-! ## The run of one request on any accepted tables -/

theorem stepWith_issue (T : Tables) {s : State} (w : Word) {rest : List Move} (h : s.engine.ph = .start)
    (hm : s.moves = .issue w :: rest) :
    stepWith T s = .next ((s.withMoves rest).withEngine (issueWordEffect T w s.engine)) := by
  have hready : (s.withMoves rest).engine.ph = .start := h
  simp only [stepWith, portStep, hm, h, if_true, issueWord, issueWordEffect]
  cases decode w with
  | ok i => exact accept_ready _ hready
  | illegal => rfl
  | malformed => rfl

/-- At a middle phase the engine takes its step whatever the host presents short of a reset, which spends at most
an `idle`. -/
theorem stepWith_middle (T : Tables) {s : State} (hs : s.engine.ph ≠ .start) (hd : s.engine.ph ≠ .done)
    (hr : .rst ∉ s.moves) :
    ∃ left, left <:+ s.moves ∧ stepWith T s = .next ((s.withMoves left).withEngine (engineStep T s.engine)) := by
  unfold stepWith portStep
  split
  · exact ⟨s.moves, List.suffix_rfl, rfl⟩
  · next rest hm => exact ⟨rest, hm ▸ List.suffix_cons _ _, rfl⟩
  · next rest hm => exact absurd (hm ▸ List.mem_cons_self) hr
  · exact ⟨s.moves, List.suffix_rfl, if_neg hd⟩
  · exact ⟨s.moves, List.suffix_rfl, if_neg hs⟩

/-- Left to itself, a machine that is not reset takes the engine steps that are left and is then at `Done`. -/
theorem runFrom_settled (T : Tables) {s : State} (hs : s.engine.ph ≠ .start) (hr : .rst ∉ s.moves) :
    ∃ left, left <:+ s.moves ∧ runFrom (stepWith T) (engineStepsLeft s.engine.ph) s =
      .next ((s.withMoves left).withEngine (settled T s.engine)) := by
  induction hn : engineStepsLeft s.engine.ph generalizing s with
  | zero =>
    have hd : s.engine.ph = .done := by revert hs hn; cases s.engine.ph <;> simp [engineStepsLeft]
    exact ⟨s.moves, List.suffix_rfl, by rw [settled_of_done T hd]; rfl⟩
  | succ n ih =>
    have hd : s.engine.ph ≠ .done := by intro hd; simp [hd, engineStepsLeft] at hn
    obtain ⟨mid, hmid, hstep⟩ := stepWith_middle T hs hd hr
    have hleft := engineStepsLeft_engineStep T hs hd
    obtain ⟨left, hsuffix, hrun⟩ := ih (s := (s.withMoves mid).withEngine (engineStep T s.engine))
      (engineStep_ph_ne_start T hs) (fun h => hr (hmid.mem h)) (Nat.succ.inj (hleft.symm.trans hn))
    rw [withEngine_engine, settled_engineStep T hs hd] at hrun
    exact ⟨left, hsuffix.trans hmid, (runFrom_succ n hstep).trans hrun⟩

/-- A request issued at `Start` is at `Done` after its issue and the engine steps it has then left. -/
theorem runFrom_issue (T : Tables) {s : State} (w : Word) {ms : List Move} (hs : s.engine.ph = .start)
    (hr : .rst ∉ ms) :
    ∃ left, left <:+ ms ∧
      runFrom (stepWith T) (engineStepsLeft (issueWordEffect T w s.engine).ph + 1) (s.withMoves (.issue w :: ms)) =
        .next ((s.withMoves left).withEngine (settled T (issueWordEffect T w s.engine))) := by
  obtain ⟨left, hsuffix, hrun⟩ := runFrom_settled T
    (s := (s.withMoves ms).withEngine (issueWordEffect T w s.engine)) (issueWordEffect_ph_ne_start T w s.engine) hr
  have hissue := stepWith_issue T (s := s.withMoves (.issue w :: ms)) w hs rfl
  exact ⟨left, hsuffix, (runFrom_succ _ hissue).trans hrun⟩

/-! ## ENC and DEC as one kind of request -/

/-- The request word of R41 written as a number is the word that carries the subkeys as DERIVE answers them. -/
theorem blockWord_eq_requestFromDerive (op : Op) (b k1 k2 : Vec 8) :
    blockWord op.code.toNat b k1 k2 = requestFromDerive op b (subkeyData (k1, k2)) := by
  have hkeys : (subkeyData (k1, k2)).toNat = k1.toNat * 2 ^ 8 + k2.toNat := toNat_append_eq_add k1 k2
  rw [blockWord, Nat.add_assoc, ← hkeys, ← toNat_requestFromDerive, BitVec.ofNat_toNat, BitVec.setWidth_eq]

/-- What ENC and DEC have in common: their word, its mask, and that the request is latched for the cipher with the
subkeys in the order its rounds read them. -/
structure BlockInstr (op : Op) (instr : Vec 8 → Vec 8 → Vec 8 → Instr)
    (result : Tables → Vec 8 → Vec 8 → Vec 8 → Vec 8) : Prop where
  mask : op.mbz = 0x0F000000#32
  word : ∀ b k1 k2, encode (instr b k1 k2) = blockWord op.code.toNat b k1 k2
  effect : ∀ T b k1 k2, issueEffect T (instr b k1 k2) = issueBlock (encode (instr b k1 k2))
  block : ∀ b k1 k2, blockField (encode (instr b k1 k2)) = b
  computes : ∀ T b k1 k2,
    cipher T b (round1Key (encode (instr b k1 k2))) (round2Key (encode (instr b k1 k2))) = result T b k1 k2

theorem blockInstr_enc : BlockInstr .enc .enc encryptBlock where
  mask := rfl
  word b k1 k2 := by
    rw [blockWord_eq_requestFromDerive, requestFromDerive_subkeyData]
    rfl
  effect _ _ _ _ := rfl
  block b k1 k2 := (fields_encode_enc b k1 k2).1
  computes T b k1 k2 := by
    obtain ⟨-, h1, h2⟩ := fields_encode_enc b k1 k2
    rw [h1, h2, encryptBlock]

theorem blockInstr_dec : BlockInstr .dec .dec decryptBlock where
  mask := rfl
  word b k1 k2 := by
    rw [blockWord_eq_requestFromDerive, requestFromDerive_subkeyData]
    rfl
  effect _ _ _ _ := rfl
  block b k1 k2 := (fields_encode_dec b k1 k2).1
  computes T b k1 k2 := by
    obtain ⟨-, h1, h2⟩ := fields_encode_dec b k1 k2
    rw [h1, h2, decryptBlock]

/-- The engine that presents the result r of the latched request (R109). -/
def blockAnswered (req : Word) (r : Vec 8) : Engine :=
  { ph := .done, req := req, w := r, rsp := { stat := 0#2, data := zext16 r.toNat } }

/-- The five engine steps of a latched request, all of the engine (R105 to R109). -/
theorem settled_issueBlock (T : Tables) (req : Word) (e : Engine) :
    settled T (issueBlock req e) =
      blockAnswered req (cipher T (blockField req) (round1Key req) (round2Key req)) := by
  rw [blockAnswered, zext16_toNat]
  rfl

section BlockRequests
variable {op : Op} {instr : Vec 8 → Vec 8 → Vec 8 → Instr} {result : Tables → Vec 8 → Vec 8 → Vec 8 → Vec 8}

/-- Six steps on any accepted tables: the issue and the five engine steps, of the moves behind at most some being
spent (R111). -/
theorem BlockInstr.run (h : BlockInstr op instr result) (T : Tables) {s : State} {ms : List Move} (b k1 k2 : Vec 8)
    (hs : s.engine.ph = .start) (hr : .rst ∉ ms) :
    ∃ used, ∃ left, ms = used ++ left ∧
      runFrom (stepWith T) 6 (s.withMoves (.issue (blockWord op.code.toNat b k1 k2) :: ms)) =
        .next { s with
          engine := blockAnswered (blockWord op.code.toNat b k1 k2) (result T b k1 k2), moves := left } := by
  have hissue : issueWordEffect T (encode (instr b k1 k2)) s.engine = issueBlock (encode (instr b k1 k2)) s.engine := by
    rw [issueWordEffect, decode_encode]
    exact congrFun (h.effect T b k1 k2) s.engine
  obtain ⟨left, ⟨used, hused⟩, hrun⟩ := runFrom_issue T (encode (instr b k1 k2)) hs hr
  rw [hissue, settled_issueBlock, h.block, h.computes, h.word] at hrun
  exact ⟨used, left, hused.symm, hrun⟩

theorem BlockInstr.blockRequest (h : BlockInstr op instr result) :
    BlockRequest op.code.toNat instr (result tables) := by
  refine ⟨fun b k1 k2 s hs => ?_, fun b k1 k2 => ?_, fun b k1 k2 s ⟨hs, hm⟩ => ?_, fun s w rest hp hopc hmask => ?_⟩
  · rw [exec_eq_accept, accept_ready _ hs, h.effect, issueBlock, h.block, h.word]
    rfl
  · rw [← h.word, decode_encode]
  · obtain ⟨used, left, hnil, hrun⟩ := h.run tables b k1 k2 hs List.not_mem_nil
    obtain ⟨-, rfl⟩ := List.append_eq_nil_iff.mp hnil.symm
    rw [← hm, ← funext step_eq_stepWith] at hrun
    exact hrun
  · rw [BitVec.ofNat_toNat, BitVec.setWidth_eq] at hopc
    exact step_malformed hp hopc (h.mask ▸ hmask)

/-- Asked at `Start`, the request is answered with `OK` and its result. -/
theorem BlockInstr.ask_result (h : BlockInstr op instr result) (b k1 k2 : Vec 8) {s : State}
    (hs : s.engine.ph = .start) :
    ask (blockWord op.code.toNat b k1 k2) s =
      some ({ stat := statOk, data := resultData (result tables b k1 k2) },
        afterRequest (blockWord op.code.toNat b k1 k2) s) := by
  have hresponse : wordResponse tables (encode (instr b k1 k2)) =
      { stat := statOk, data := resultData (result tables b k1 k2) } := by
    rw [← settled_issueWordEffect_rsp tables _ s.engine, issueWordEffect, decode_encode]
    simp only [h.effect]
    rw [settled_issueBlock_rsp, h.block, h.computes]
  rw [ask_eq _ hs, ← h.word, hresponse]

end BlockRequests

/-- `DATA[7:0]` of a block's response is the block (R49). -/
theorem extractLsb'_resultData (v : Vec 8) : (resultData v).extractLsb' 0 8 = v := by
  rw [resultData, ← BitVec.setWidth_eq_extractLsb' (by omega), BitVec.setWidth_setWidth_of_le _ (by omega),
    BitVec.setWidth_eq]

end Sys2Proof.Machine

namespace Sys2Proof.Proofs

open Sys2Proof.Machine

/-- Settles O32: one structure undoes itself with the subkeys exchanged, so each direction is the inverse of the
other. -/
theorem decryptionInvertsEncryption : Obligations.DecryptionInvertsEncryption := fun T =>
  ⟨decryptBlock_encryptBlock T, encryptBlock_decryptBlock T, fun p _ => decryptBlock_encryptBlock T p _ _,
    fun k1 k2 => Function.bijective_iff_has_inverse.mpr ⟨fun c => decryptBlock T c k1 k2,
      fun p => decryptBlock_encryptBlock T p k1 k2, fun c => encryptBlock_decryptBlock T c k1 k2⟩⟩

/-- Settles O30, by the run of one latched request. -/
theorem sequencerComputesTheCipher : Obligations.SequencerComputesTheCipher := fun T _ _ b k1 k2 hs hr =>
  ⟨blockInstr_enc.run T b k1 k2 hs hr, blockInstr_dec.run T b k1 k2 hs hr⟩

/-- Settles O23, by the five things a step can do. -/
theorem responsesComeFromTakesOnly : Obligations.ResponsesComeFromTakesOnly := by
  intro s t h
  obtain ⟨rest, -, rfl⟩ | ⟨rest, hm, hd, rfl⟩ | ⟨w, rest, -, -, rfl⟩ | ⟨rest, -, rfl⟩ | ⟨-, rfl⟩ := cases_of_step h
  · exact .inl rfl
  · exact .inr ⟨⟨rest, hm⟩, hd, rfl, rfl⟩
  · exact .inl rfl
  · exact .inl rfl
  · exact .inl rfl

/-- Settles O17: at `Done` the engine has no step of its own, so without a take only moves are spent. -/
theorem heldResponseStaysUntilTaken : Obligations.HeldResponseStaysUntilTaken := by
  refine ⟨fun s rest hd hm => step_take hd hm, fun s hd hr hnotake => ?_⟩
  have hstays : engineStep tables s.engine = s.engine := by simp [engineStep, hd]
  obtain ⟨t, h⟩ := exists_step s
  refine ⟨t, h, ?_⟩
  obtain ⟨rest, hm, -⟩ | ⟨rest, hm, -⟩ | ⟨w, rest, -, hs, -⟩ | ⟨rest, -, rfl⟩ | ⟨-, rfl⟩ := cases_of_step h
  · exact absurd hm (hr rest)
  · exact absurd hm (hnotake rest)
  · rw [hd] at hs
    cases hs
  · exact ⟨hstays, rfl⟩
  · exact ⟨hstays, rfl⟩

/-- Settles O15: at a middle phase a step is the engine's own, and only a take at `Done` hands a response over. -/
theorem sequencerSteps : Obligations.SequencerSteps := by
  intro s hr
  obtain ⟨t, h⟩ := exists_step s
  have hengine {p : Phase} (hp : s.engine.ph = p) (hs : p ≠ .start) (hd : p ≠ .done) :
      t.engine = engineStep tables s.engine :=
    engine_of_step_middle h hr (hp ▸ hs) (hp ▸ hd)
  refine ⟨t, h, fun hd => ?_, fun hp => ?_, fun hp => ?_, fun hp => ?_, fun hp => ?_, fun hp => ?_⟩
  · obtain hreceived | ⟨-, hd', -⟩ := responsesComeFromTakesOnly s t h
    · exact hreceived
    · exact absurd hd' hd
  · simp [hengine hp, engineStep, hp, initialPermutationStep]
  · simp [hengine hp, engineStep, hp, round1Step, round1Key_eq]
  · simp [hengine hp, engineStep, hp, swapStep]
  · simp [hengine hp, engineStep, hp, round2Step, round2Key_eq]
  · simp [hengine hp, engineStep, hp, finalPermutationStep, respond, zext16_toNat, statOk]

/-- Settles O13: ENC is a block request whose cipher is `encryptBlock`; with K1 = K2 the order of the two does not
matter. Each value is traced phase by phase. -/
theorem encRequest : Obligations.EncRequest := by
  have hzero : encryptBlock tables 0 0 0 = 0b11110000#8 :=
    cipher_of_trace (v1 := 0) (v2 := 0b10000000#8) (v3 := 0b00001000#8) (v4 := 0b10111000#8)
      (by decide) (by decide) (by decide) (by decide) (by decide)
  have hones : encryptBlock tables 0xFF#8 0xFF#8 0xFF#8 = 0b00001111#8 :=
    cipher_of_trace (v1 := 0xFF#8) (v2 := 0b01111111#8) (v3 := 0b11110111#8) (v4 := 0b01000111#8)
      (by decide) (by decide) (by decide) (by decide) (by decide)
  have hip : permute tables.ip 0b10010111#8 = 0b01011101#8 := by decide
  have hround1 : roundFunction tables 0b01011101#8 0b10100100#8 = 0b10101101#8 := by decide
  have hswap : swapHalves 0b10101101#8 = 0b11011010#8 := by decide
  have hround2 : roundFunction tables 0b11011010#8 0b01000011#8 = 0b00101010#8 := by decide
  exact ⟨blockInstr_enc.blockRequest, fun _ _ => rfl, hzero, hones, by decide, hip, hround1, hswap, hround2,
    cipher_of_trace hip hround1 hswap hround2 (by decide)⟩

/-- Settles O14: DEC is a block request whose cipher is `decryptBlock`; every block is the encryption of its own
decryption. The value is traced phase by phase. -/
theorem decRequest : Obligations.DecRequest := by
  have hip : permute tables.ip 0b00111000#8 = 0b00101010#8 := by decide
  have hround1 : roundFunction tables 0b00101010#8 0b01000011#8 = 0b11011010#8 := by decide
  have hswap : swapHalves 0b11011010#8 = 0b10101101#8 := by decide
  have hround2 : roundFunction tables 0b10101101#8 0b10100100#8 = 0b01011101#8 := by decide
  exact ⟨blockInstr_dec.blockRequest, fun _ _ _ => rfl,
    fun c k1 k2 => ⟨decryptBlock tables c k1 k2, encryptBlock_decryptBlock tables c k1 k2⟩,
    by decide, hip, hround1, hswap, hround2, cipher_of_trace hip hround1 hswap hround2 (by decide)⟩

/-- Settles O33: the two responses carry the two results, and decryption inverts encryption. -/
theorem portRoundTrip : Obligations.PortRoundTrip := by
  intro s b k1 k2 hs
  have henc := blockInstr_enc.ask_result b k1 k2 hs
  have hdec := blockInstr_dec.ask_result (encryptBlock tables b k1 k2) k1 k2 (afterRequest_ph (blockWord 2 b k1 k2) s)
  rw [decryptBlock_encryptBlock, ← zext16_toNat] at hdec
  refine ⟨_, _, afterRequest (blockWord 3 (encryptBlock tables b k1 k2) k1 k2) (afterRequest (blockWord 2 b k1 k2) s),
    henc, rfl, ?_⟩
  rw [extractLsb'_resultData]
  exact hdec

/-- Settles O37, position by position; the example by evaluation. -/
theorem swapHalvesIsSelfInverse : Obligations.SwapHalvesIsSelfInverse :=
  ⟨fun v _ h1 h4 => ⟨bit_swapHalves_left v h1 h4, bit_swapHalves_right v h1 h4⟩, swapHalves_swapHalves, by decide⟩

/-- Settles O38: both directions are the one `cipher`, by definition. -/
theorem decryptionReversesTheSubkeys : Obligations.DecryptionReversesTheSubkeys := fun _ _ _ _ => ⟨rfl, rfl, rfl⟩

end Sys2Proof.Proofs
end

section
/-! PROOF. The statements of 60_exceptions.md (O19, O24). A move that is enabled has a next state, and so has the
engine's turn; at `Start` the turn changes nothing. -/

namespace Sys2Proof.Machine

/-- `exists_step` on any accepted tables: an enabled host move has a next state, and so has the engine's turn. -/
theorem exists_stepWith (T : Tables) (s : State) : ∃ t, stepWith T s = .next t := by
  cases hm : s.moves with
  | nil => simp [stepWith, portStep, engineTurn, hm]
  | cons m rest =>
    cases m with
    | issue w =>
      by_cases hs : s.engine.ph = .start
      · exact ⟨_, stepWith_issue T w hs hm⟩
      · simp [stepWith, portStep, engineTurn, hm, hs]
    | take => by_cases hd : s.engine.ph = .done <;> simp [stepWith, portStep, engineTurn, hm, hd]
    | rst => simp [stepWith, portStep, hm]
    | idle => simp [stepWith, portStep, engineTurn, hm]

end Sys2Proof.Machine

namespace Sys2Proof.Proofs

open Sys2Proof.Machine

/-- Settles O24: the machine's own step is covered by the five cases of `step_cases`, the configured one by the host's
next move. -/
theorem noStepStops : Obligations.NoStepStops := ⟨exists_step, exists_stepWith⟩

/-- Settles O19: without an issue or a reset next only the engine's turn is left, and it has no step at `Start`. -/
theorem idleEngineWaits : Obligations.IdleEngineWaits := by
  intro s hs hr hnoissue
  have hstays : engineStep tables s.engine = s.engine := engineStep_start tables hs
  obtain ⟨t, h⟩ := exists_step s
  refine ⟨t, h, ?_⟩
  obtain ⟨rest, hm, -⟩ | ⟨rest, -, hd, -⟩ | ⟨w, rest, hm, -⟩ | ⟨rest, -, rfl⟩ | ⟨-, rfl⟩ := cases_of_step h
  · exact absurd hm (hr rest)
  · rw [hs] at hd
    cases hd
  · exact absurd hm (hnoissue w rest)
  · exact ⟨hstays, rfl, rfl⟩
  · exact ⟨hstays, rfl, rfl⟩

end Sys2Proof.Proofs
end

section
/-! PROOF. The statements of 70_reset_and_hazards.md (O3, O18, O31, O55 to O57). The engine steps left to `Done` count
a request's time; a request with its take is one stretch of a program's run; and a run that is over stays so, so that
nothing can be received after it. -/

namespace Sys2Proof.Machine

/-! ## The engine steps left, step by step -/

theorem engineStep_done (T : Tables) {e : Engine} (h : e.ph = .done) : engineStep T e = e := by
  simp [engineStep, h]

theorem engineStepsLeft_eq_zero_iff {p : Phase} (h : p ≠ .start) : engineStepsLeft p = 0 ↔ p = .done := by
  cases p <;> simp_all [engineStepsLeft]

/-- An engine step is one of those that are left, or there is none to take (R27, R130, R137). -/
theorem engineStepsLeft_lt_or_waits (T : Tables) (e : Engine) :
    engineStepsLeft (engineStep T e).ph < engineStepsLeft e.ph ∨
      (engineStep T e = e ∧ (e.ph = .start ∨ e.ph = .done)) := by
  by_cases hs : e.ph = .start
  · exact .inr ⟨engineStep_start T hs, .inl hs⟩
  · by_cases hd : e.ph = .done
    · exact .inr ⟨engineStep_done T hd, .inr hd⟩
    · exact .inl (by rw [engineStepsLeft_engineStep T hs hd]; exact Nat.lt_succ_self _)

/-- A spent move pays for the at most five engine steps it may bring. -/
theorem stepsLeft_lt_of_spent {s t : State} {m : Move} (hm : s.moves = m :: t.moves) : stepsLeft t < stepsLeft s := by
  have hle := engineStepsLeft_le t.engine.ph
  rw [stepsLeft, stepsLeft, hm, List.length_cons]
  omega

/-- While engine steps are left, a machine that is not reset takes one at every step, whatever moves are placed. -/
theorem stepN_engineStepsLeft {k : Nat} {s : State} (hs : s.engine.ph ≠ .start) (hr : .rst ∉ s.moves)
    (hk : k ≤ engineStepsLeft s.engine.ph) :
    ∃ t, stepN k s = .next t ∧ t.engine.ph ≠ .start ∧ engineStepsLeft s.engine.ph = engineStepsLeft t.engine.ph + k := by
  induction k generalizing s with
  | zero => exact ⟨s, rfl, hs, rfl⟩
  | succ k ih =>
    have hd : s.engine.ph ≠ .done := by intro hd; simp [hd, engineStepsLeft] at hk
    obtain ⟨left, hsuffix, hstep⟩ := stepWith_middle tables hs hd hr
    have hleft := engineStepsLeft_engineStep tables hs hd
    rw [hleft] at hk
    obtain ⟨t, hrun, hts, ht⟩ := ih (s := (s.withMoves left).withEngine (engineStep tables s.engine))
      (engineStep_ph_ne_start tables hs) (fun h => hr (hsuffix.mem h)) (Nat.le_of_succ_le_succ hk)
    exact ⟨t, (runFrom_succ k ((step_eq_stepWith s).trans hstep)).trans hrun, hts, hleft.trans (congrArg (· + 1) ht)⟩

/-! ## The end of a run -/

theorem runOver_iff (s : State) : runOver s = true ↔ s.engine.ph = .start ∧ ∀ w, Move.issue w ∉ s.moves := by
  simp [runOver, List.eq_nil_iff_forall_not_mem, mem_requestsLeft]

/-- A run that is over stays over and receives nothing; only a reset touches the engine then. -/
theorem runOver_step {s t : State} (hover : runOver s = true) (h : step s = .next t) :
    runOver t = true ∧ t.received = s.received ∧ (NoResetNext s → t.engine = s.engine) := by
  obtain ⟨hs, hno⟩ := (runOver_iff s).mp hover
  have hstays := engineStep_start tables hs
  have hrest {m : Move} {rest : List Move} (hm : s.moves = m :: rest) (w : Word) : Move.issue w ∉ rest :=
    fun hw => hno w (hm ▸ List.mem_cons_of_mem m hw)
  obtain ⟨rest, hm, rfl⟩ | ⟨rest, -, hd, -⟩ | ⟨w, rest, hm, -⟩ | ⟨rest, hm, rfl⟩ | ⟨-, rfl⟩ := cases_of_step h
  · exact ⟨(runOver_iff _).mpr ⟨rfl, hrest hm⟩, rfl, fun hr => absurd hm (hr rest)⟩
  · rw [hs] at hd
    cases hd
  · exact absurd (hm ▸ List.mem_cons_self) (hno w)
  · rw [hstays]
    exact ⟨(runOver_iff _).mpr ⟨hs, hrest hm⟩, rfl, fun _ => rfl⟩
  · rw [hstays]
    exact ⟨hover, rfl, fun _ => rfl⟩

theorem stepN_received_of_runOver (k : Nat) {s : State} (hover : runOver s = true) :
    ∃ t, stepN k s = .next t ∧ t.received = s.received := by
  induction k generalizing s with
  | zero => exact ⟨s, rfl, rfl⟩
  | succ k ih =>
    obtain ⟨u, hu⟩ := exists_step s
    obtain ⟨hover', hreceived, -⟩ := runOver_step hover hu
    obtain ⟨t, hrun, ht⟩ := ih hover'
    exact ⟨t, (runFrom_succ k hu).trans hrun, ht.trans hreceived⟩

/-! ## The run of a program -/

/-- The stretch of one request in a program: its issue, the engine steps it has then left, its take. -/
theorem stepN_request_of_program (w : Word) {s : State} (rest : List Move) (h : s.engine.ph = .start) :
    stepN (engineStepsLeft (issueWordEffect tables w s.engine).ph + 2) (s.withMoves (.issue w :: .take :: rest)) =
      .next ((afterRequest w s).withMoves rest) := by
  have hissue := step_issue (s := s.withMoves (.issue w :: .take :: rest)) w h rfl
  exact (runFrom_succ _ hissue).trans
    (stepN_take (s := (s.withMoves (.take :: rest)).withEngine (issueWordEffect tables w s.engine))
      (issueWordEffect_ph_ne_start tables w s.engine) rfl)

/-- From seven steps for each request on, a program's run has made all its moves, and each request was answered by its
own word's response. -/
theorem stepN_programMoves {ws : List Word} {k : Nat} {s : State} (h : s.engine.ph = .start) (hk : 7 * ws.length ≤ k) :
    ∃ t, stepN k (s.withMoves (programMoves ws)) = .next t ∧ t.engine.ph = .start ∧ t.moves = [] ∧
      t.received = s.received ++ ws.map (wordResponse tables) := by
  induction ws generalizing k s with
  | nil => exact ⟨s.withMoves [], stepN_idle_engine k h rfl, h, rfl, (List.append_nil _).symm⟩
  | cons w ws ih =>
    have hfirst := stepN_request_of_program w (programMoves ws) h
    have hle := engineStepsLeft_le (issueWordEffect tables w s.engine).ph
    rw [List.length_cons] at hk
    obtain ⟨j, rfl⟩ := Nat.exists_eq_add_of_le
      (show engineStepsLeft (issueWordEffect tables w s.engine).ph + 2 ≤ k by omega)
    obtain ⟨t, hrun, hs, hm, hreceived⟩ := ih (k := j) (afterRequest_ph w s) (by omega)
    exact ⟨t, (runFrom_add j hfirst).trans hrun, hs, hm, by simp [hreceived]⟩

end Sys2Proof.Machine

namespace Sys2Proof.Proofs

open Sys2Proof.Machine

/-- Settles O3: the reset event's own fields. -/
theorem rstAlwaysLeadsToStart : Obligations.RstAlwaysLeadsToStart :=
  fun s rest hm => ⟨resetEvent (s.withMoves rest), step_rst hm, rfl, rfl, rfl, rfl, rfl⟩

/-- Settles O18: a busy engine accepts nothing, so the issue waits and the engine has its own step, which writes no
`REQ` and at `Done` is none. -/
theorem busyEngineIgnoresRequests : Obligations.BusyEngineIgnoresRequests := by
  refine fun s hs => ⟨fun i => (exec_eq_accept i s).trans (accept_busy _ hs), fun w rest hm => ?_⟩
  have hwaits : HostWaits s := .inr (.inr ⟨w, rest, hm, hs⟩)
  refine ⟨_, step_waits hwaits, rfl, engineStep_req tables s.engine, rfl, fun hd => ?_⟩
  rw [engineStep_done tables hd, withEngine_self]

/-- Settles O31: a latched request has five engine steps left after its issue, any other word none. -/
theorem requestsReachDoneOnTime : Obligations.RequestsReachDoneOnTime := by
  rintro s w ms ⟨hs, hm⟩ hr
  have hissue := step_issue w hs hm
  split
  · next hlatched =>
    rw [issueWordEffect_of_latchedRequest tables s.engine hlatched] at hissue
    have hrun {k : Nat} (hk : k ≤ 5) :
        ∃ t, stepN (k + 1) s = .next t ∧ t.engine.ph ≠ .start ∧ 5 = engineStepsLeft t.engine.ph + k := by
      obtain ⟨t, ht, hleft⟩ := stepN_engineStepsLeft (k := k)
        (s := (s.withMoves ms).withEngine (issueBlock w s.engine)) (by simp) hr hk
      exact ⟨t, (runFrom_succ k hissue).trans ht, hleft⟩
    constructor
    · intro k t h1 h5 ht
      obtain ⟨k, rfl⟩ := Nat.exists_eq_add_of_le' h1
      obtain ⟨t', ht', hstart, hleft⟩ := hrun (k := k) (by omega)
      obtain rfl := Host.Outcome.next.inj (ht'.symm.trans ht)
      exact ⟨fun hd => by have := (engineStepsLeft_eq_zero_iff hstart).mpr hd; omega, hstart⟩
    · obtain ⟨t, ht, hstart, hleft⟩ := hrun (k := 5) le_rfl
      exact ⟨t, ht, (engineStepsLeft_eq_zero_iff hstart).mp (by omega)⟩
  · next hother =>
    rw [issueWordEffect_of_not_latchedRequest tables s.engine hother] at hissue
    exact ⟨_, runFrom_succ 0 hissue, rfl⟩

/-- Settles O55. -/
theorem onlyFinalStatesEndARun : Obligations.OnlyFinalStatesEndARun :=
  fun s => ⟨runOver_iff s, fun _ => runOver_step⟩

/-- Settles O56 with `wordResponse`. A run that is over after k steps receives no more, and after enough further steps
it has received all: so it had received all by then. -/
theorem programsRunToTheirEnd : Obligations.ProgramsRunToTheirEnd := by
  refine ⟨wordResponse tables, fun ws s hs => ⟨?_, fun k u hu hover => ?_⟩⟩
  · obtain ⟨t, hrun, hstart, hm, hreceived⟩ := stepN_programMoves hs (le_refl (7 * ws.length))
    exact ⟨t, hrun, (runOver_iff t).mpr ⟨hstart, by simp [hm]⟩, hm, hreceived⟩
  · obtain ⟨t, hrun, -, -, hreceived⟩ := stepN_programMoves hs (Nat.le_add_left (7 * ws.length) k)
    obtain ⟨t', hrun', hreceived'⟩ := stepN_received_of_runOver (7 * ws.length) hover
    obtain rfl := Host.Outcome.next.inj (hrun.symm.trans ((runFrom_add _ hu).trans hrun'))
    rw [← hreceived', hreceived]

/-- Settles O57: where no move is spent, the engine takes one of the steps it has left or changes nothing. -/
theorem everyRunComesToRest : Obligations.EveryRunComesToRest := by
  intro s t h
  obtain ⟨rest, hm, rfl⟩ | ⟨rest, hm, -, rfl⟩ | ⟨w, rest, hm, -, rfl⟩ | ⟨rest, hm, rfl⟩ | ⟨-, rfl⟩ := cases_of_step h
  · exact .inl (stepsLeft_lt_of_spent hm)
  · exact .inl (stepsLeft_lt_of_spent hm)
  · exact .inl (stepsLeft_lt_of_spent hm)
  · exact .inl (stepsLeft_lt_of_spent hm)
  · obtain hlt | ⟨hstays, hph⟩ := engineStepsLeft_lt_or_waits tables s.engine
    · exact .inl (Nat.add_lt_add_left hlt _)
    · exact .inr ⟨by rw [hstays, withEngine_self], hph⟩

end Sys2Proof.Proofs
end
